-- ==== Sys2Proof/Word.lean ====
section
/-! DEFINITION. The words of the codec (spec/00_scope.md R7, R8; spec/30_encoding.md R30, R32, R35). Bit 0 of
every word is its least significant bit (R8), which is how `BitVec` numbers its bits; `v[hi:lo]` is written
`v.extractLsb' lo (hi - lo + 1)`. -/

namespace Sys2Proof

/-- A binary16 pattern (R30), `HALF_WIDTH` = 16 bits (R7). -/
abbrev Half := BitVec 16

/-- A binary32 pattern (R32), `SINGLE_WIDTH` = 32 bits (R7). -/
abbrev Single := BitVec 32

/-- A transaction word `T = {op, a[31:0]}` of the JOINT form (R35): `T[32]` is `op`, `T[31:0]` is `a`. -/
abbrev Transaction := BitVec 33

end Sys2Proof
end

