-- ==== Sys2Proof/Syntax.lean ====
section
/-! DEFINITION. The instructions: one constructor per row of spec/opcode_table.json. An instruction here is one
transaction, an operation on one operand (spec/10_state.md R20); the block fetches no program (R14). -/

namespace Sys2Proof

/-- The two operations (spec/00_scope.md R2). Neither has an immediate, register or addressing mode
(spec/30_encoding.md R37): the operand is the word itself. The ignored bits `a[31:16]` of a DECODE are no part of
it (R36). -/
inductive Instr where
  /-- DECODE: binary16 to binary32 (spec/40_decode_fp16_to_fp32.md R42). -/
  | decode (h : Half)
  /-- ENCODE: binary32 to binary16 (spec/41_encode_fp32_to_fp16.md R54). -/
  | encode (f : Single)
  deriving DecidableEq, Repr

end Sys2Proof
end

