-- ==== Sys2Proof/WellFormed.lean ====
section
/-! DEFINITION. Which terms are transactions. Every operand pattern of either operation is legal
(spec/30_encoding.md R34) and no encoding is reserved (R38), so the one check there is to make is on a word's
width: a transaction word has 33 bits (R39). -/

namespace Sys2Proof

/-- Every instruction is legal on every operand (R34, R38); the operand's width is its type's. -/
def Instr.wellFormed : Instr → Bool
  | .decode _ => true
  | .encode _ => true

/-- A number is a transaction word when it fits the 33 bits of R35 and R39. -/
def transactionWordOk (w : Nat) : Bool := decide (w < 2 ^ 33)

end Sys2Proof
end

