-- ==== Sys2Proof/Decode.lean ====
section
/-! DEFINITION. From transaction words to instructions and back (spec/30_encoding.md R35 to R40). -/

namespace Sys2Proof

/-- The mnemonic of an instruction, as spec/opcode_table.json has it. -/
def Instr.mnemonic : Instr → String
  | .decode _ => "DECODE"
  | .encode _ => "ENCODE"

/-- Why a number is no transaction. The only way: it does not fit the 33 bits of R35. -/
inductive DecodeReject where
  | widerThanTransaction
  deriving DecidableEq, Repr

/-- A row of spec/opcode_table.json: a word is the row's when its bits under `mask` are those of `pattern`. -/
structure OpcodeRow where
  mnemonic : String
  aliases  : List String
  mask     : Transaction
  pattern  : Transaction
  deriving DecidableEq, Repr

/-- spec/opcode_table.json, row by row; the aliases are R40's. -/
def opcodeTable : List OpcodeRow :=
  [ { mnemonic := "DECODE", aliases := ["fp16_to_fp32", "H2S"], mask := 0x100000000#33, pattern := 0x000000000#33 },
    { mnemonic := "ENCODE", aliases := ["fp32_to_fp16", "S2H"], mask := 0x100000000#33, pattern := 0x100000000#33 } ]

/-- A word belongs to a row of the table. -/
def OpcodeRow.covers (r : OpcodeRow) (T : Transaction) : Bool :=
  T &&& r.mask == r.pattern

/-- The `op` bit of a word, `T[32]` (R35). -/
def opOf (T : Transaction) : BitVec 1 := T.extractLsb' 32 1

/-- The `a` word, `T[31:0]` (R35). -/
def operandOf (T : Transaction) : BitVec 32 := T.extractLsb' 0 32

/-- The decoder. It is total and rejects nothing: all 2^33 words are legal (R38). `op` = 0 selects DECODE of
`a[15:0]`, whatever `a[31:16]` holds; `op` = 1 selects ENCODE of `a[31:0]` (R35, R36). -/
def decodeWord (T : Transaction) : Instr :=
  if opOf T = 0#1 then .decode ((operandOf T).extractLsb' 0 16)
  else .encode (operandOf T)

/-- The decoder on any number, rejecting by name what has no transaction word's width. Log entry 13. -/
def decodeNat (w : Nat) : Except DecodeReject Instr :=
  if transactionWordOk w then .ok (decodeWord (BitVec.ofNat 33 w)) else .error .widerThanTransaction

/-- What the decoder reads from a word of `nbits` bits, numbered as spec/opcode_table.json numbers them. -/
def decodeTableWord (nbits w : Nat) : Option Instr :=
  match decodeNat (w % 2 ^ nbits) with
  | .ok i => some i
  | .error _ => none

/-- The assembled word `T = {op, a}` of an instruction (R40): `a` is the half zero-extended for DECODE, the single
for ENCODE. -/
def encode : Instr → Transaction
  | .decode h => 0#1 ++ (0#16 ++ h)
  | .encode f => 1#1 ++ f

end Sys2Proof
end

