-- ==== Sys2Proof/Config.lean ====
section
/-! DEFINITION. What is fixed when the hardware is built (spec/00_scope.md R4, R7; spec/70_reset_and_hazards.md R84),
and the free values: constants with no body, of which nothing can be proved but what their types say. -/

namespace Sys2Proof

/-- `NAN_POLICY` (R7): which NaN a NaN operand gives (R48 for DECODE, R64 for ENCODE). One parameter for both. -/
inductive NanPolicy where
  /-- keep the sign, force the quiet bit, keep the payload bits that fit -/
  | propagateQuiet
  /-- always the positive quiet NaN with zero payload -/
  | defaultNan
  /-- some NaN, a fixed function of the operand: the weakest conforming reading -/
  | anyNan
  deriving DecidableEq, Repr

/-- `FORM` (R7): two independent units, or one unit with an operation select. -/
inductive Form where
  | split
  | joint
  deriving DecidableEq, Repr

/-- The parameters of a build (R7). `HALF_WIDTH` and `SINGLE_WIDTH` are fixed (Word.lean), and so is `ROUNDING`:
its only legal value is round to nearest even, so it carries no choice and is no field. -/
structure Build where
  nanPolicy : NanPolicy
  form      : Form
  latency   : Nat
  deriving DecidableEq, Repr

/-- This hardware (R7, column "This hardware"). -/
def Build.hardware : Build :=
  { nanPolicy := .propagateQuiet, form := .joint, latency := 0 }

/-- The identity string (R4). -/
def Config.name : String := "ieee754_halfprecision_codec"

/-- The revision (R4). -/
def Config.revision : String := "v7"

/-- A binary32 NaN as data: a sign and a nonzero fraction, given as that fraction less one, so that every value of
this type is a NaN and every binary32 NaN is one value of it. -/
structure Nan32 where
  sign     : BitVec 1
  fracPred : Fin 8388607
  deriving DecidableEq, Repr, Inhabited

/-- A binary16 NaN as data, in the same way. -/
structure Nan16 where
  sign     : BitVec 1
  fracPred : Fin 1023
  deriving DecidableEq, Repr, Inhabited

/-- FREE VALUE (R48 `nanDec`): the NaN that an `ANY_NAN` build gives when it decodes this half. A fixed function of the
operand (R51), of which only NaN-ness is known. Log entry 2. -/
opaque Config.nanDec : Half → Nan32

/-- FREE VALUE (R64 `nanEnc`): the NaN that an `ANY_NAN` build gives when it encodes this single. Log entry 2. -/
opaque Config.nanEnc : Single → Nan16

/-- FREE VALUE: the n-th word of w bits that a pipelined unit holds where R21 and R81 say "any value". Log entry 3. -/
opaque Config.freeWord (w : Nat) (n : Nat) : BitVec w

/-- FREE VALUE: the n-th bit that a pipelined unit holds where a control wire it reads is not driven, so that neither
level can be assumed. Log entry 6. -/
opaque Config.freeBit (n : Nat) : Bool

/-- FREE VALUE: the valid bit of stage k at power-on, before the first reset (R81). Log entry 4. -/
opaque Config.powerOnValid (k : Nat) : Bool

end Sys2Proof
end

