-- ==== Sys2Proof/Machine/Operands.lean ====
section
/-! DEFINITION. The operands' fields and classes, and the words a result is packed into (spec/30_encoding.md R30 to
R33, R37; spec/00_scope.md R9, R10). -/

namespace Sys2Proof.Machine

/-- `msb_index(m)`, the index of the highest set bit of m > 0, `floor(log2(m))` (R9). -/
def msbIndex (m : Nat) : Nat := Nat.log2 m

/-- `odd(q)` (R9). -/
def odd (q : Nat) : Bool := q % 2 == 1

/-- `s = h[15]` (R30). -/
def sign16 (h : Half) : BitVec 1 := h.extractLsb' 15 1

/-- `e = h[14:10]` (R30). -/
def exp16 (h : Half) : BitVec 5 := h.extractLsb' 10 5

/-- `m = h[9:0]` (R30). -/
def frac16 (h : Half) : BitVec 10 := h.extractLsb' 0 10

/-- `s = f[31]` (R32). -/
def sign32 (f : Single) : BitVec 1 := f.extractLsb' 31 1

/-- `E = f[30:23]` (R32). -/
def exp32 (f : Single) : BitVec 8 := f.extractLsb' 23 8

/-- `M = f[22:0]` (R32). -/
def frac32 (f : Single) : BitVec 23 := f.extractLsb' 0 23

/-- `{s, e, m}` as a half (R30). -/
def pack16 (s : BitVec 1) (e : BitVec 5) (m : BitVec 10) : Half := s ++ e ++ m

/-- `{s, E, M}` as a single (R32). -/
def pack32 (s : BitVec 1) (e : BitVec 8) (m : BitVec 23) : Single := s ++ e ++ m

/-- `isNaN16(h)` (R10). -/
def isNaN16 (h : Half) : Bool := exp16 h == 31#5 && frac16 h != 0#10

/-- `isNaN32(f)` (R10). -/
def isNaN32 (f : Single) : Bool := exp32 f == 255#8 && frac32 f != 0#23

/-- The classes of a pattern (R31, R33). -/
inductive FpClass where
  | signedZero
  | subnormal
  | normal
  | infinity
  | quietNan
  | signalingNan
  deriving DecidableEq, Repr

/-- The class of a binary16 pattern, row by row of R31. -/
def class16 (h : Half) : FpClass :=
  if exp16 h = 0#5 then (if frac16 h = 0#10 then .signedZero else .subnormal)
  else if exp16 h = 31#5 then
    (if frac16 h = 0#10 then .infinity else if (frac16 h).getLsbD 9 then .quietNan else .signalingNan)
  else .normal

/-- The class of a binary32 pattern, row by row of R33. -/
def class32 (f : Single) : FpClass :=
  if exp32 f = 0#8 then (if frac32 f = 0#23 then .signedZero else .subnormal)
  else if exp32 f = 255#8 then
    (if frac32 f = 0#23 then .infinity else if (frac32 f).getLsbD 22 then .quietNan else .signalingNan)
  else .normal

/-- The pattern of a binary32 NaN given as data: `{s, 8'hFF, M}` with M nonzero. -/
def patternOfNan32 (n : Nan32) : Single :=
  pack32 n.sign 0xFF#8 (BitVec.ofNat 23 (n.fracPred.val + 1))

/-- The pattern of a binary16 NaN given as data: `{s, 5'h1F, m}` with m nonzero. -/
def patternOfNan16 (n : Nan16) : Half :=
  pack16 n.sign 0x1F#5 (BitVec.ofNat 10 (n.fracPred.val + 1))

end Sys2Proof.Machine
end

