-- ==== Sys2Proof/Machine/State.lean ====
section
/-! DEFINITION. The state of the machine as plain data (spec/10_state.md R12, R19, R21), the reasons a step can stop,
and the state after reset (spec/70_reset_and_hazards.md R80 to R82). The block has no register, pc, flag, mode or
memory (R13 to R18, R22): what is left to hold is the wires of its ports, the stages of a pipelined build, and what
the host does at the ports. -/

namespace Sys2Proof.Machine

/-- An input port of w wires. Wire i is driven to 1 when bit i of `ones` alone is set, and to 0 when bit i of `zeros`
alone is set. With neither it is floating, with both it is contended, so that its level is unknown: either way it is
not driven to 0 or 1 (spec/60_exceptions.md R72). Log entry 5. -/
structure Port (w : Nat) where
  ones  : BitVec w
  zeros : BitVec w
  deriving DecidableEq, Repr

/-- A port with no wire driven. -/
def Port.floating {w : Nat} : Port w := { ones := 0#w, zeros := 0#w }

/-- The operand ports of the JOINT unit (R19): `op` and `a[31:0]`. -/
structure JointPorts where
  op : Port 1
  a  : Port 32
  deriving DecidableEq, Repr

/-- Why the machine gives no result. -/
inductive Fault where
  /-- "input not driven" (R72, R82, R85): raised by a step that would read a wire which is not driven to 0 or 1, or
  whose level has not settled; a pipelined unit also records it in the stage of its transaction. SAFE: the model gives
  no value where the spec gives none. -/
  | inputNotDriven
  deriving DecidableEq, Repr

/-- One pipeline stage (R21): a valid bit and a result word. `fault` is the fault that R72 has a model record for the
transaction in this stage, whose word then stands for no value: it goes through the pipeline with its transaction, and
the others in flight keep their own results (R78). Log entry 19. -/
structure Stage (w : Nat) where
  v     : Bool
  r     : BitVec w
  fault : Option Fault
  deriving DecidableEq, Repr

/-- A unit with operand ports ι and a result port of w bits (R19, R21).
Of its fields, `operand`, `clk`, `rst`, `inValid` are the input ports (the last three exist only when LATENCY > 0),
and `stages` is `stage[0..L-1]`, stage 0 first (empty when LATENCY = 0). The output ports `y`, `f_out`, `h_out` and
`out_valid` are not stored: Machine/Ops.lean computes them.
The other fields are the model's own: `held`, the host holds the inputs stable for the settling time at this sample
(R85, log entry 7); `clkWas`, the level of `clk` one step ago (log entry 10); `result`, the result of the last
transaction evaluated at a LATENCY = 0 unit, none before the first (R20, R82, log entry 8); `draws`, how many free
words the unit has drawn (log entry 3). -/
structure CodecUnit (ι : Type) (w : Nat) where
  operand : ι
  held    : Bool
  clk     : Port 1
  clkWas  : Bool
  rst     : Port 1
  inValid : Port 1
  stages  : List (Stage w)
  result  : Option (BitVec w)
  draws   : Nat
  deriving DecidableEq, Repr

/-- The two units of the SPLIT form (R19). -/
inductive SplitUnit where
  /-- `fp16_to_fp32_converter` -/
  | decodeUnit
  /-- `fp32_to_fp16_converter` -/
  | encodeUnit
  deriving DecidableEq, Repr

/-- The machine's state. A JOINT build has the unit `joint`; a SPLIT build has `decodeUnit` (`h_in` to `f_out`) and
`encodeUnit` (`f_in` to `h_out`), and `turn` says which of the two the host drives in this step (R35, log entry 11).
A build leaves the units it does not have alone. -/
structure State where
  joint      : CodecUnit JointPorts 32
  decodeUnit : CodecUnit (Port 16) 32
  encodeUnit : CodecUnit (Port 32) 16
  turn       : SplitUnit
  deriving DecidableEq, Repr

/-- Why the machine has no meaning for an instruction. -/
inductive Refusal where
  /-- Raised by no step: both instructions of the table have their meaning. SAFE. -/
  | notModelled (mnemonic : String)
  deriving DecidableEq, Repr

/-- The stages after a reset edge (R81): every valid bit 0, every result word any value. -/
def resetStages (w : Nat) (L : Nat) : List (Stage w) :=
  (List.range L).map fun k => { v := false, r := Config.freeWord w k, fault := none }

/-- The stages at power-on, before the first reset (R81): valid bits and result words are any value. -/
def powerOnStages (w : Nat) (L : Nat) : List (Stage w) :=
  (List.range L).map fun k => { v := Config.powerOnValid k, r := Config.freeWord w k, fault := none }

/-- A unit whose inputs nobody drives yet (R82), with the given stages, each word of which is one free draw. -/
def CodecUnit.undriven {ι : Type} {w : Nat} (inputs : ι) (stages : List (Stage w)) : CodecUnit ι w :=
  { operand := inputs
    held    := false
    clk     := Port.floating
    clkWas  := true
    rst     := Port.floating
    inValid := Port.floating
    stages  := stages
    result  := none
    draws   := stages.length }

/-- The state of a build right after reset (R80, R81). -/
def State.resetOf (b : Build) : State :=
  { joint      := CodecUnit.undriven { op := Port.floating, a := Port.floating } (resetStages 32 b.latency)
    decodeUnit := CodecUnit.undriven Port.floating (resetStages 32 b.latency)
    encodeUnit := CodecUnit.undriven Port.floating (resetStages 16 b.latency)
    turn       := .decodeUnit }

/-- The state of a build at power-on, before the first reset (R81). -/
def State.powerOnOf (b : Build) : State :=
  { joint      := CodecUnit.undriven { op := Port.floating, a := Port.floating } (powerOnStages 32 b.latency)
    decodeUnit := CodecUnit.undriven Port.floating (powerOnStages 32 b.latency)
    encodeUnit := CodecUnit.undriven Port.floating (powerOnStages 16 b.latency)
    turn       := .decodeUnit }

/-- This hardware right after reset: LATENCY is 0, so there is no stage and nothing to reset (R80). -/
def State.reset : State := State.resetOf Build.hardware

end Sys2Proof.Machine
end

