-- ==== Sys2Proof/Machine/Ops.lean ====
section
/-! DEFINITION. The operations on ports, units and states that every meaning and every build share
(spec/10_state.md R19 to R21; spec/60_exceptions.md R72; spec/70_reset_and_hazards.md R81, R82, R85, R86).
There is no memory or register operation and no exception entry or return: the block has none of these (R13, R22, R69,
R75, R76). -/

namespace Sys2Proof.Machine

/-! ### Ports -/

/-- The port with every wire driven to the bits of v: wire i carries bit i (spec/20_memory.md R23). -/
def Port.drive {w : Nat} (v : BitVec w) : Port w := { ones := v, zeros := ~~~v }

/-- The wires that are driven to 0 or 1. -/
def Port.driven {w : Nat} (p : Port w) : BitVec w := p.ones ^^^ p.zeros

/-- The word on the port, if every wire of it is driven (R72). -/
def Port.read {w : Nat} (p : Port w) : Option (BitVec w) :=
  if p.driven = BitVec.allOnes w then some p.ones else none

/-- Wires 15..0 of a 32-wire port: all that DECODE reads of `a` (spec/30_encoding.md R36). -/
def Port.low16 (p : Port 32) : Port 16 :=
  { ones := p.ones.extractLsb' 0 16, zeros := p.zeros.extractLsb' 0 16 }

/-- The transaction on the JOINT unit's ports (R35, R36), if every wire that the selected operation reads is driven
(R72). DECODE does not read `a[31:16]`, whose wires may be in any state; the word then has zeros there, as the assembled
word of R40 does. Log entry 12. -/
def JointPorts.word (p : JointPorts) : Option Transaction :=
  match p.op.read with
  | none => none
  | some op =>
    if op = 0#1 then p.a.low16.read.map fun h => 0#1 ++ (0#16 ++ h)
    else p.a.read.map fun f => 1#1 ++ f

/-- The ports with every wire driven to a transaction word (R35). -/
def JointPorts.drive (T : Transaction) : JointPorts :=
  { op := Port.drive (T.extractLsb' 32 1), a := Port.drive (T.extractLsb' 0 32) }

/-! ### Outcomes -/

/-- Go on with k after a next state; a fault or a refusal stays. -/
def andThen {σ τ : Type} (o : Host.Outcome σ Fault Refusal) (k : σ → Host.Outcome τ Fault Refusal) :
    Host.Outcome τ Fault Refusal :=
  match o with
  | .next s => k s
  | .fault r => .fault r
  | .refused r => .refused r

/-- What a step leaves and the fault it records. R72 has a model record the fault of a transaction, and R75 says that it
is never final: `after` is the state the machine goes on from, with or without a fault. -/
structure Advance (σ : Type) where
  after : σ
  fault : Option Fault
  deriving DecidableEq, Repr

/-- The outcome of a step for the host's interface, which has no state beside a fault (log entry 18). -/
def Advance.outcome {σ : Type} (x : Advance σ) : Host.Outcome σ Fault Refusal :=
  match x.fault with
  | none => .next x.after
  | some r => .fault r

/-- The same step seen from a larger state. -/
def Advance.map {σ τ : Type} (f : σ → τ) (x : Advance σ) : Advance τ := { after := f x.after, fault := x.fault }

/-! ### Units

`eval` below is what a unit computes from its operand ports: a result, or none where a wire it reads is not driven.
A name that ends in `On` is a step that goes on whatever fault it records; the same name without it is its outcome. -/

/-- One transaction at a LATENCY = 0 unit (R20): the result, if the host holds the inputs stable (R85) and every wire
that is read is driven. Otherwise the fault is recorded, and since the unit has no state nothing else happens (R72,
R75). -/
def CodecUnit.evaluateOn {ι : Type} {w : Nat} (eval : ι → Option (BitVec w)) (u : CodecUnit ι w) :
    Advance (CodecUnit ι w) :=
  if u.held then
    match eval u.operand with
    | some v => { after := { u with result := some v }, fault := none }
    | none => { after := u, fault := some .inputNotDriven }
  else { after := u, fault := some .inputNotDriven }

/-- The outcome of one transaction at a LATENCY = 0 unit. -/
def CodecUnit.evaluate {ι : Type} {w : Nat} (eval : ι → Option (BitVec w)) (u : CodecUnit ι w) :
    Host.Outcome (CodecUnit ι w) Fault Refusal :=
  (u.evaluateOn eval).outcome

/-- Every stage with its valid bit 0 and its word any value, drawn from the n-th free word on (R21 `rst == 1`, R81). -/
def clearStages {w : Nat} : Nat → List (Stage w) → List (Stage w)
  | _, [] => []
  | n, _ :: rest => { v := false, r := Config.freeWord w n, fault := none } :: clearStages (n + 1) rest

/-- Every stage with its valid bit and its word any value and the fault recorded in it: what is left where it cannot be
known whether the stages were cleared or shifted or stayed. Log entry 6. -/
def loseStages {w : Nat} : Nat → List (Stage w) → List (Stage w)
  | _, [] => []
  | n, _ :: rest =>
    { v := Config.freeBit n, r := Config.freeWord w n, fault := some .inputNotDriven } :: loseStages (n + 1) rest

/-- R21's shift of an L-stage pipeline: `stage[0]` takes the new entry, `stage[k]` takes `stage[k-1]`. -/
def shiftStages {w : Nat} (L : Nat) (entry : Stage w) (stages : List (Stage w)) : List (Stage w) :=
  (entry :: stages).take L

/-- What `stage[0]` captures at an edge with `rst` = 0 (R21). With `in_valid` = 1 it is the result, or, where an operand
wire that is read is not driven, a valid entry with the fault and no value (R72). With `in_valid` = 0 no operand wire is
read and the word is any value. Where `in_valid` itself is not driven the valid bit is either, with the fault (log
entry 6). -/
def CodecUnit.captured {ι : Type} {w : Nat} (eval : ι → Option (BitVec w)) (u : CodecUnit ι w) : Stage w :=
  match u.inValid.read with
  | none => { v := Config.freeBit u.draws, r := Config.freeWord w u.draws, fault := some .inputNotDriven }
  | some inValid =>
    if inValid = 1#1 then
      match eval u.operand with
      | some v => { v := true, r := v, fault := none }
      | none => { v := true, r := Config.freeWord w u.draws, fault := some .inputNotDriven }
    else { v := false, r := Config.freeWord w u.draws, fault := none }

/-- A rising edge of `clk` at a unit of a LATENCY = L > 0 build (R21). `rst` = 1 clears every valid bit and discards what
is presented (R81). `rst` = 0 shifts every stage, whatever `stage[0]` captures, so that the transactions in flight keep
their own results also where the new one's operand is not driven (R72, R78, R86). An undriven `rst` loses what is in
flight (log entry 6). -/
def CodecUnit.risingEdgeOn {ι : Type} {w : Nat} (eval : ι → Option (BitVec w)) (L : Nat) (u : CodecUnit ι w) :
    Advance (CodecUnit ι w) :=
  match u.rst.read with
  | none =>
    { after := { u with stages := loseStages u.draws u.stages, draws := u.draws + u.stages.length }
      fault := some .inputNotDriven }
  | some rst =>
    if rst = 1#1 then
      { after := { u with stages := clearStages u.draws u.stages, draws := u.draws + u.stages.length }
        fault := none }
    else
      { after := { u with stages := shiftStages L (u.captured eval) u.stages, draws := u.draws + 1 }
        fault := (u.captured eval).fault }

/-- The outcome of a rising edge. -/
def CodecUnit.risingEdge {ι : Type} {w : Nat} (eval : ι → Option (BitVec w)) (L : Nat) (u : CodecUnit ι w) :
    Host.Outcome (CodecUnit ι w) Fault Refusal :=
  (u.risingEdgeOn eval L).outcome

/-- One step of a pipelined unit: the host has put a level on `clk`. At a rising edge the state changes; at any other
level nothing does (R19). The level seen is noted either way, and whatever fault the edge records, so that the same
level is no second edge. Where `clk` is not driven it is not known whether there was an edge (log entries 6 and 10). -/
def CodecUnit.clockedOn {ι : Type} {w : Nat} (eval : ι → Option (BitVec w)) (L : Nat) (u : CodecUnit ι w) :
    Advance (CodecUnit ι w) :=
  match u.clk.read with
  | none =>
    { after := { u with
        stages := loseStages u.draws u.stages
        clkWas := Config.freeBit (u.draws + u.stages.length)
        draws := u.draws + u.stages.length + 1 }
      fault := some .inputNotDriven }
  | some level =>
    if level = 1#1 ∧ u.clkWas = false then
      (u.risingEdgeOn eval L).map fun u' => { u' with clkWas := true }
    else { after := { u with clkWas := level == 1#1 }, fault := none }

/-- The outcome of one step of a pipelined unit. -/
def CodecUnit.clocked {ι : Type} {w : Nat} (eval : ι → Option (BitVec w)) (L : Nat) (u : CodecUnit ι w) :
    Host.Outcome (CodecUnit ι w) Fault Refusal :=
  (u.clockedOn eval L).outcome

/-- One step of a unit of a build with LATENCY = L (R86): a transaction when L = 0, a level of `clk` when L > 0. -/
def CodecUnit.stepOn {ι : Type} {w : Nat} (eval : ι → Option (BitVec w)) (L : Nat) (u : CodecUnit ι w) :
    Advance (CodecUnit ι w) :=
  if L = 0 then u.evaluateOn eval else u.clockedOn eval L

/-- The outcome of one step of a unit. -/
def CodecUnit.step {ι : Type} {w : Nat} (eval : ι → Option (BitVec w)) (L : Nat) (u : CodecUnit ι w) :
    Host.Outcome (CodecUnit ι w) Fault Refusal :=
  (u.stepOn eval L).outcome

/-- The word a stage has for the result port: none where a fault is recorded for its transaction (R72). -/
def Stage.value {w : Nat} (g : Stage w) : Option (BitVec w) :=
  match g.fault with
  | none => some g.r
  | some _ => none

/-- The output port `out_valid` of a pipelined unit: `stage[L-1].v` (R21). -/
def CodecUnit.outValid {ι : Type} {w : Nat} (u : CodecUnit ι w) : Bool :=
  match u.stages.getLast? with
  | some g => g.v
  | none => false

/-- The result port (`y`, `f_out` or `h_out`). When LATENCY = 0 it is the function of the inputs (R20), and has a value
only while the host holds them stable (R85) and every wire that is read is driven (R82). In a pipelined build it is
`stage[L-1].r` (R21), which means something only when `out_valid` is 1; it has no value where that transaction's input was
not driven (R72). -/
def CodecUnit.output {ι : Type} {w : Nat} (eval : ι → Option (BitVec w)) (L : Nat) (u : CodecUnit ι w) :
    Option (BitVec w) :=
  if L = 0 then (if u.held then eval u.operand else none) else u.stages.getLast?.bind Stage.value

/-- What the host samples at a unit after a step: the transaction's result when LATENCY = 0, and the word on the port when
LATENCY > 0 and `out_valid` is 1. -/
def CodecUnit.sampled {ι : Type} {w : Nat} (L : Nat) (u : CodecUnit ι w) : Option (BitVec w) :=
  if L = 0 then u.result
  else match u.stages.getLast? with
    | some g => if g.v then g.value else none
    | none => none

/-- The transaction this hardware's step reads: the one on the ports, if the host holds them stable (R72, R85). -/
def CodecUnit.presented (u : CodecUnit JointPorts 32) : Option Transaction :=
  if u.held then u.operand.word else none

/-! ### States -/

/-- The state after a transaction of this hardware gave y: the JOINT unit's result, and nothing else (R20, R25). -/
def State.withResult (s : State) (y : BitVec 32) : State :=
  { s with joint := { s.joint with result := some y } }

/-- The host presents a transaction to the JOINT unit and holds it (R20, R85). -/
def State.present (s : State) (T : Transaction) : State :=
  { s with joint := { s.joint with operand := JointPorts.drive T, held := true } }

end Sys2Proof.Machine
end

