-- ==== Sys2Proof/Machine/Fp16ToFp32.lean ====
section
/-! DEFINITION. The family of DECODE, the unit `fp16_to_fp32_converter` (spec/40_decode_fp16_to_fp32.md). -/

namespace Sys2Proof.Machine

/-- `NaN32(h)` (R48): the NaN that a NaN half decodes to, by `NAN_POLICY`. -/
def nan32 (policy : NanPolicy) (h : Half) : Single :=
  match policy with
  | .propagateQuiet => pack32 (sign16 h) 0xFF#8 (1#1 ++ (frac16 h).extractLsb' 0 9 ++ 0#13)
  | .defaultNan => 0x7FC00000#32
  | .anyNan => patternOfNan32 (Config.nanDec h)

/-- `DECODE(h)` (R42): exact widening, class by class (R43 to R48). -/
def fp16ToFp32 (policy : NanPolicy) (h : Half) : Single :=
  let s := sign16 h
  let e := (exp16 h).toNat
  let m := (frac16 h).toNat
  if e = 0 ∧ m = 0 then pack32 s 0#8 0#23
  else if e = 0 then
    let p := msbIndex m
    pack32 s (BitVec.ofNat 8 (p + 103)) (BitVec.ofNat 23 ((m - 2 ^ p) <<< (23 - p)))
  else if e = 31 ∧ m = 0 then pack32 s 0xFF#8 0#23
  else if e = 31 then nan32 policy h
  else pack32 s (BitVec.ofNat 8 (e + 112)) (frac16 h ++ 0#13)

/-- The meaning of DECODE on this hardware: `y` is `DECODE(h)` (R42, R20), and nothing else changes (R50). -/
def execDecode (h : Half) (s : State) : Host.Outcome State Fault Refusal :=
  .next (s.withResult (fp16ToFp32 Build.hardware.nanPolicy h))

end Sys2Proof.Machine
end

