-- ==== Sys2Proof/Machine/Fp32ToFp16.lean ====
section
/-! DEFINITION. The family of ENCODE, the unit `fp32_to_fp16_converter` (spec/41_encode_fp32_to_fp16.md). Where prose
of the source contradicts the rounding rule, the rule stands (spec/90_conflicts.md C1, C2). -/

namespace Sys2Proof.Machine

/-- `NaN16(f)` (R64): the NaN that a NaN single encodes to, by `NAN_POLICY`. -/
def nan16 (policy : NanPolicy) (f : Single) : Half :=
  match policy with
  | .propagateQuiet => pack16 (sign32 f) 0x1F#5 (1#1 ++ (frac32 f).extractLsb' 13 9)
  | .defaultNan => 0x7E00#16
  | .anyNan => patternOfNan16 (Config.nanEnc f)

/-- `sig` of R54: the significand as an integer, `|value32(f)| = sig * 2^(ux - 23)`. -/
def significand (f : Single) : Nat :=
  if exp32 f = 0#8 then (frac32 f).toNat else 2 ^ 23 + (frac32 f).toNat

/-- `ux` of R54: the unbiased exponent. -/
def unbiasedExponent (f : Single) : Int :=
  if exp32 f = 0#8 then -126 else ((exp32 f).toNat : Int) - 127

/-- R54's rounding of `sig / 2^n` to an integer: the quotient, one more when the dropped part r is over half, or is
exactly half and the quotient is odd (R58 step 2). -/
def roundHalfEven (sig n : Nat) : Nat :=
  let q := sig >>> n
  let r := sig % 2 ^ n
  if r > 2 ^ (n - 1) ∨ (r = 2 ^ (n - 1) ∧ odd q) then q + 1 else q

/-- The 15 magnitude bits of the result in the normal range and above it (R59, R60): exponent field and fraction as one
integer, so that a carry out of the fraction moves into the exponent, clamped to infinity. -/
def normalMagnitude (sig : Nat) (ux : Int) : Nat :=
  let mag := (ux + 15).toNat * 2 ^ 10 + (roundHalfEven sig 13 - 2 ^ 10)
  if mag ≥ 0x7C00 then 0x7C00 else mag

/-- The 15 magnitude bits of the result in the subnormal range and below it (R61, R62). -/
def subnormalMagnitude (sig : Nat) (ux : Int) : Nat :=
  roundHalfEven sig (-ux - 1).toNat

/-- `ENCODE(f)` (R54). -/
def fp32ToFp16 (policy : NanPolicy) (f : Single) : Half :=
  let s := sign32 f
  if exp32 f = 255#8 ∧ frac32 f = 0#23 then pack16 s 0x1F#5 0#10
  else if exp32 f = 255#8 then nan16 policy f
  else
    let sig := significand f
    let ux := unbiasedExponent f
    if ux ≥ -14 then s ++ BitVec.ofNat 15 (normalMagnitude sig ux)
    else s ++ BitVec.ofNat 15 (subnormalMagnitude sig ux)

/-- The meaning of ENCODE on this hardware: `y[15:0]` is `ENCODE(f)` and `y[31:16]` is 0 (R54, R36), and nothing else
changes (R65). -/
def execEncode (f : Single) (s : State) : Host.Outcome State Fault Refusal :=
  .next (s.withResult (0#16 ++ fp32ToFp16 Build.hardware.nanPolicy f))

end Sys2Proof.Machine
end

