-- ==== Sys2Proof/Machine/Dispatch.lean ====
section
/-! DEFINITION. One arm per instruction, each a call of that instruction's meaning. -/

namespace Sys2Proof.Machine

def exec (i : Instr) (s : State) : Host.Outcome State Fault Refusal :=
  match i with
  | .decode h => Sys2Proof.Machine.execDecode h s
  | .encode f => Sys2Proof.Machine.execEncode f s

end Sys2Proof.Machine
end

