-- ==== Sys2Proof/Machine/Step.lean ====
section
/-! DEFINITION. One step of this hardware (FORM JOINT, LATENCY 0, spec/00_scope.md R7): the transaction on the ports is
evaluated (spec/10_state.md R20). There is no program counter to fetch at (R14): what runs is what the host presents. -/

namespace Sys2Proof.Machine

/-- One transaction: read it from the ports, decode it, run it. Where a wire that it would read is not driven or not
settled there is no result (spec/60_exceptions.md R72). -/
def step (s : State) : Host.Outcome State Fault Refusal :=
  match s.joint.presented with
  | none => .fault .inputNotDriven
  | some T => exec (decodeWord T) s

/-- The state in which the host presents the word w of nbits bits, numbered as spec/opcode_table.json numbers them.
This stands for loading a program: the host drives each transaction (R14). Log entry 9. -/
def State.withFetchWord (s : State) (nbits w : Nat) : State :=
  s.present (BitVec.ofNat 33 (w % 2 ^ nbits))

end Sys2Proof.Machine
end

