-- ==== Sys2Proof/Machine/Codec.lean ====
section
/-! DEFINITION. The function of a transaction, `CODEC`, and what each unit computes from its ports
(spec/10_state.md R19, R20; spec/30_encoding.md R36). -/

namespace Sys2Proof.Machine

/-- `CODEC(op, a)` (R20). -/
def codec (policy : NanPolicy) (op : BitVec 1) (a : BitVec 32) : BitVec 32 :=
  if op = 0#1 then fp16ToFp32 policy (a.extractLsb' 0 16)
  else 0#16 ++ fp32ToFp16 policy a

/-- The JOINT unit `ieee754_halfprecision_codec`: from `op` and `a` to `y`. -/
def jointEval (policy : NanPolicy) (p : JointPorts) : Option (BitVec 32) :=
  p.word.map fun T => codec policy (opOf T) (operandOf T)

/-- `fp16_to_fp32_converter`: from `h_in` to `f_out`. -/
def decodeUnitEval (policy : NanPolicy) (hIn : Port 16) : Option (BitVec 32) :=
  hIn.read.map (fp16ToFp32 policy)

/-- `fp32_to_fp16_converter`: from `f_in` to `h_out`. -/
def encodeUnitEval (policy : NanPolicy) (fIn : Port 32) : Option (BitVec 16) :=
  fIn.read.map (fp32ToFp16 policy)

end Sys2Proof.Machine
end

