-- ==== Sys2Proof/Machine/Values.lean ====
section
/-! DEFINITION. The values that patterns encode, as exact rational numbers, and the rounding rule that defines ENCODE
(spec/00_scope.md R10; spec/30_encoding.md R31, R33; spec/41_encode_fp32_to_fp16.md R58). Statements are made in these
terms; no step computes with them. -/

namespace Sys2Proof.Machine

/-- A value (R10): a number with its sign kept apart, so that +0 and -0 differ, a signed infinity, or NaN. -/
inductive FpValue where
  | number (negative : Bool) (magnitude : ℚ)
  | infinity (negative : Bool)
  | nan
  deriving DecidableEq, Repr

/-- The magnitude of a finite binary16 pattern (R31): `m * 2^-24`, or `(1024 + m) * 2^(e - 25)`. -/
def magnitude16 (h : Half) : ℚ :=
  if exp16 h = 0#5 then ((frac16 h).toNat : ℚ) * 2 ^ (-24 : ℤ)
  else (1024 + (frac16 h).toNat : ℚ) * 2 ^ (((exp16 h).toNat : ℤ) - 25)

/-- The magnitude of a finite binary32 pattern (R33): `M * 2^-149`, or `(2^23 + M) * 2^(E - 150)`. -/
def magnitude32 (f : Single) : ℚ :=
  if exp32 f = 0#8 then ((frac32 f).toNat : ℚ) * 2 ^ (-149 : ℤ)
  else (2 ^ 23 + (frac32 f).toNat : ℚ) * 2 ^ (((exp32 f).toNat : ℤ) - 150)

/-- `value16(h)` (R10, R31). -/
def value16 (h : Half) : FpValue :=
  if exp16 h = 31#5 then (if frac16 h = 0#10 then .infinity (sign16 h == 1#1) else .nan)
  else .number (sign16 h == 1#1) (magnitude16 h)

/-- `value32(f)` (R10, R33). -/
def value32 (f : Single) : FpValue :=
  if exp32 f = 255#8 then (if frac32 f = 0#23 then .infinity (sign32 f == 1#1) else .nan)
  else .number (sign32 f == 1#1) (magnitude32 f)

/-- A pattern of a finite single: neither infinity nor NaN. -/
def isFinite32 (f : Single) : Bool := exp32 f != 255#8

/-- A pattern of a finite half. -/
def isFinite16 (h : Half) : Bool := exp16 h != 31#5

/-- The half of sign 0 whose exponent field and fraction are the 15 bits k: the finite ones are those below 0x7C00. -/
def halfOfMagnitudeBits (k : BitVec 15) : Half := 0#1 ++ k

/-- How far a magnitude x is from that of the half with magnitude bits k. -/
def distance16 (x : ℚ) (k : BitVec 15) : ℚ := |x - magnitude16 (halfOfMagnitudeBits k)|

/-- `r = RNE16(x)` for a number of the given sign and magnitude x (R58). Step 1: from 65520 on, the infinity.
Step 2: below it, a finite half whose magnitude no other finite half is nearer to x than, and whose fraction bit 0 is 0
where another is exactly as near. Step 3: the sign of x. -/
def IsRne16 (negative : Bool) (x : ℚ) (r : Half) : Prop :=
  (sign16 r == 1#1) = negative ∧
  if 65520 ≤ x then r.extractLsb' 0 15 = 0x7C00#15
  else r.extractLsb' 0 15 < 0x7C00#15 ∧
    ∀ k : BitVec 15, k < 0x7C00#15 → k ≠ r.extractLsb' 0 15 →
      distance16 x (r.extractLsb' 0 15) < distance16 x k ∨
      (distance16 x (r.extractLsb' 0 15) = distance16 x k ∧ (r.extractLsb' 0 15).getLsbD 0 = false)

/-- The order of values that R67 uses: by real value, with -0 = +0 and the infinities at the ends. A NaN is in no order
with anything. -/
def FpValue.le : FpValue → FpValue → Prop
  | .nan, _ => False
  | _, .nan => False
  | .infinity neg, y => neg = true ∨ y = .infinity false
  | .number _ _, .infinity neg => neg = false
  | .number n₁ m₁, .number n₂ m₂ => (if n₁ then -m₁ else m₁) ≤ (if n₂ then -m₂ else m₂)

end Sys2Proof.Machine
end

