-- ==== Sys2Proof/Machine/Flags.lean ====
section
/-! DEFINITION. The block has no flag (spec/10_state.md R15; spec/60_exceptions.md R71). This file only says when the
IEEE 754 conditions of R70's table arise, so that statements can say they are silent: no step reads or writes any of
this. -/

namespace Sys2Proof.Machine

/-- The conditions IEEE 754 defines for a conversion (R70). -/
structure IeeeConditions where
  invalid      : Bool
  overflow     : Bool
  underflow    : Bool
  inexact      : Bool
  divideByZero : Bool
  deriving DecidableEq, Repr

/-- The conditions of DECODE: invalid on a signaling NaN, and never another, since DECODE is exact (R70). -/
def conditionsOfDecode (h : Half) : IeeeConditions :=
  { invalid := class16 h == .signalingNan, overflow := false, underflow := false, inexact := false,
    divideByZero := false }

/-- The conditions of ENCODE (R70): invalid on a signaling NaN; overflow on a finite magnitude of 65520 or more; inexact
where the result's value is not the operand's; underflow where that happens to a nonzero magnitude below 2^-14 (log
entry 14). -/
def conditionsOfEncode (policy : NanPolicy) (f : Single) : IeeeConditions :=
  let inexact := isFinite32 f && value16 (fp32ToFp16 policy f) != value32 f
  { invalid := class32 f == .signalingNan
    overflow := isFinite32 f && decide (65520 ≤ magnitude32 f)
    underflow := inexact && decide (0 < magnitude32 f ∧ magnitude32 f < 2 ^ (-14 : ℤ))
    inexact := inexact
    divideByZero := false }

end Sys2Proof.Machine
end

