-- ==== Sys2Proof/Machine/Builds.lean ====
section
/-! DEFINITION. The machine of every build: `NAN_POLICY`, `FORM` and `LATENCY` are arguments of the whole machine
(spec/00_scope.md R7; spec/70_reset_and_hazards.md R84). The machine of Step.lean is the one of `Build.hardware`. -/

namespace Sys2Proof.Machine

/-- One step of a build, which goes on whatever fault it records. JOINT: a step of the one unit. SPLIT: a step of the unit
that the host drives, which is the operation (spec/30_encoding.md R35); the other unit does not move
(spec/60_exceptions.md R78). -/
def stepOnOf (b : Build) (s : State) : Advance State :=
  match b.form with
  | .joint => (s.joint.stepOn (jointEval b.nanPolicy) b.latency).map fun u => { s with joint := u }
  | .split =>
    match s.turn with
    | .decodeUnit =>
      (s.decodeUnit.stepOn (decodeUnitEval b.nanPolicy) b.latency).map fun u => { s with decodeUnit := u }
    | .encodeUnit =>
      (s.encodeUnit.stepOn (encodeUnitEval b.nanPolicy) b.latency).map fun u => { s with encodeUnit := u }

/-- The outcome of one step of a build. -/
def stepOf (b : Build) (s : State) : Host.Outcome State Fault Refusal := (stepOnOf b s).outcome

/-- The machine of a build, with the state after its reset (R80, R81). -/
def machineOf (b : Build) : Host.Core :=
  { State := State, Fault := Fault, Refusal := Refusal, step := stepOf b, reset := State.resetOf b }

/-- Every unit of the state has the build's L stages (R21). -/
def State.wf (b : Build) (s : State) : Bool :=
  s.joint.stages.length == b.latency && s.decodeUnit.stages.length == b.latency &&
    s.encodeUnit.stages.length == b.latency

/-- What the host puts on a pipelined unit's ports in one clock cycle (R19). -/
structure CycleInputs (ι : Type) where
  operand : ι
  rst     : Port 1
  inValid : Port 1
  deriving DecidableEq, Repr

/-- One clock cycle (R21): the inputs are on the ports when the rising edge that ends the cycle comes. -/
def CodecUnit.cycle {ι : Type} {w : Nat} (eval : ι → Option (BitVec w)) (L : Nat) (c : CycleInputs ι)
    (u : CodecUnit ι w) : Host.Outcome (CodecUnit ι w) Fault Refusal :=
  { u with operand := c.operand, rst := c.rst, inValid := c.inValid }.risingEdge eval L

/-- Clock cycles one after another (R86), as long as none records a fault. -/
def CodecUnit.cycles {ι : Type} {w : Nat} (eval : ι → Option (BitVec w)) (L : Nat) :
    List (CycleInputs ι) → CodecUnit ι w → Host.Outcome (CodecUnit ι w) Fault Refusal
  | [], u => .next u
  | c :: cs, u => andThen (u.cycle eval L c) (CodecUnit.cycles eval L cs)

/-- Clock cycles one after another (R86), whatever fault any of them records (R75, R78). -/
def CodecUnit.cyclesOn {ι : Type} {w : Nat} (eval : ι → Option (BitVec w)) (L : Nat) :
    List (CycleInputs ι) → CodecUnit ι w → CodecUnit ι w
  | [], u => u
  | c :: cs, u =>
    CodecUnit.cyclesOn eval L cs
      ({ u with operand := c.operand, rst := c.rst, inValid := c.inValid }.risingEdgeOn eval L).after

end Sys2Proof.Machine
end

