-- ==== Sys2Proof/Machine/Instances.lean ====
section
/-! DEFINITION. Several instances side by side, of any builds and so of either form (spec/60_exceptions.md R78;
spec/20_memory.md R27). They share no state and need no synchronisation, so a system is a list of instances, and a step
of it is a step of one of them. Log entry 17. -/

namespace Sys2Proof.Machine

/-- One instance: its own build (R84), its own state, and the fault that its last step recorded, if that step gave no
result (R72). The record `fault` is the model's own (log entry 17). -/
structure Instance where
  build : Build
  state : State
  fault : Option Fault
  deriving DecidableEq, Repr

/-- A step of one instance. A fault is never final (R75): it is recorded at this instance, and the instance goes on from
what the step leaves. A LATENCY = 0 build is left as it was; a pipelined one has taken its edge, and only the faulted
transaction has no value (R78). That the record is kept here, and lasts until the instance's next step, is the model's
choice (log entry 17). -/
def Instance.step (x : Instance) : Instance :=
  { x with state := (stepOnOf x.build x.state).after, fault := (stepOnOf x.build x.state).fault }

/-- A step of the k-th instance. The other instances do not change, also when the step is the fault of R72, which is that
transaction's alone: that they go on is the model's reading of R75 and R78 (log entry 17). Where there is no k-th
instance nothing changes. -/
def stepInstance (k : Nat) (system : List Instance) : List Instance :=
  match system[k]? with
  | none => system
  | some x => system.set k x.step

/-- Steps of the instances named by a schedule, in its order. A fault at one of them ends neither the schedule nor any
other instance's transactions (log entry 17). -/
def runSchedule (schedule : List Nat) (system : List Instance) : List Instance :=
  schedule.foldl (fun now k => stepInstance k now) system

/-- The host presents a transaction to a LATENCY = 0 build and holds it: on `op` and `a` of a JOINT unit, or on the input
of the SPLIT unit that is the operation (spec/30_encoding.md R35, R36). -/
def State.presentTo (b : Build) (s : State) (T : Transaction) : State :=
  match b.form with
  | .joint => s.present T
  | .split =>
    if opOf T = 0#1 then
      { s with
        decodeUnit := { s.decodeUnit with operand := Port.drive ((operandOf T).extractLsb' 0 16), held := true }
        turn := .decodeUnit }
    else
      { s with
        encodeUnit := { s.encodeUnit with operand := Port.drive (operandOf T), held := true }
        turn := .encodeUnit }

/-- What the host samples at a build after a step, as a word placed as on `y` (R36): the unit of a JOINT build, or the
SPLIT unit it drove. -/
def State.resultAt (b : Build) (s : State) : Option (BitVec 32) :=
  match b.form with
  | .joint => s.joint.sampled b.latency
  | .split =>
    match s.turn with
    | .decodeUnit => s.decodeUnit.sampled b.latency
    | .encodeUnit => (s.encodeUnit.sampled b.latency).map fun h => 0#16 ++ h

/-- What the host samples at an instance after a step. At LATENCY = 0 there is nothing where that step recorded a fault
(R72); in a pipelined build the fault is the new transaction's, and the one on the port keeps its own result (R78). -/
def Instance.sampled (x : Instance) : Option (BitVec 32) :=
  if x.build.latency = 0 ∧ x.fault.isSome = true then none else x.state.resultAt x.build

/-- A transaction word for the instance of the given index. -/
structure ScheduledTransaction where
  index : Nat
  word  : Transaction
  deriving DecidableEq, Repr

/-- The host presents the transaction to its instance and the instance evaluates it. -/
def transact (e : ScheduledTransaction) (system : List Instance) : List Instance :=
  match system[e.index]? with
  | none => system
  | some x => system.set e.index (Instance.step { x with state := x.state.presentTo x.build e.word })

/-- The results of transactions at the instances of a system, interleaved as the list has them (R27). -/
def runTransactions : List ScheduledTransaction → List Instance → List (Option (BitVec 32))
  | [], _ => []
  | e :: es, system =>
    ((transact e system)[e.index]?.bind Instance.sampled) :: runTransactions es (transact e system)

end Sys2Proof.Machine
end

