-- ==== Sys2Proof/Machine/Program.lean ====
section
/-! DEFINITION. Programs: sequences of transactions that the host drives, in the notation of spec/30_encoding.md R40.
The block has no program of its own (spec/10_state.md R14): what is here is the host's side of the ports. -/

namespace Sys2Proof.Machine

/-- The operation a mnemonic or an alias names (R40), as its `op` value (R35). -/
def opOfMnemonic (name : String) : Option (BitVec 1) :=
  if name = "DECODE" ∨ name = "fp16_to_fp32" ∨ name = "H2S" then some 0#1
  else if name = "ENCODE" ∨ name = "fp32_to_fp16" ∨ name = "S2H" then some 1#1
  else none

/-- An operand of a transaction line (R40): a literal of the operation's width, an earlier line's result as it is, bits
15..0 of a 32-bit result, or a 16-bit result zero-extended. Lines are counted from 0. Log entry 15. -/
inductive OperandSource where
  | half (h : Half)
  | single (f : Single)
  | result (line : Nat)
  | lo16 (line : Nat)
  | zext32 (line : Nat)
  deriving DecidableEq, Repr

/-- A transaction line (R40). -/
inductive ProgramLine where
  | decodeOf (source : OperandSource)
  | encodeOf (source : OperandSource)
  deriving DecidableEq, Repr

/-- The line that a mnemonic or alias and an operand make (R40). -/
def lineOfMnemonic (name : String) (source : OperandSource) : Option ProgramLine :=
  (opOfMnemonic name).map fun op => if op = 0#1 then .decodeOf source else .encodeOf source

/-- A line's result: 32 bits from DECODE, 16 bits from ENCODE (R40). -/
inductive LineResult where
  | single (f : Single)
  | half (h : Half)
  deriving DecidableEq, Repr

/-- The operand of a DECODE line, given the results so far: none where the source does not give a half. -/
def halfOperand (results : List LineResult) : OperandSource → Option Half
  | .half h => some h
  | .single _ => none
  | .result k => match results[k]? with
    | some (.half h) => some h
    | _ => none
  | .lo16 k => match results[k]? with
    | some (.single f) => some (f.extractLsb' 0 16)
    | _ => none
  | .zext32 _ => none

/-- The operand of an ENCODE line, given the results so far: none where the source does not give a single. -/
def singleOperand (results : List LineResult) : OperandSource → Option Single
  | .half _ => none
  | .single f => some f
  | .result k => match results[k]? with
    | some (.single f) => some f
    | _ => none
  | .lo16 _ => none
  | .zext32 k => match results[k]? with
    | some (.half h) => some (0#16 ++ h)
    | _ => none

/-- The instruction a line stands for, given the results so far. -/
def ProgramLine.instr (results : List LineResult) : ProgramLine → Option Instr
  | .decodeOf source => (halfOperand results source).map .decode
  | .encodeOf source => (singleOperand results source).map .encode

/-- The width of a line's result decides what later lines may do with it: true where it is 32 bits. -/
def ProgramLine.resultIsSingle : ProgramLine → Bool
  | .decodeOf _ => true
  | .encodeOf _ => false

/-- A source gives a half (`wantSingle` = false) or a single (true), every line it names being an earlier one with a
result of the right width. -/
def OperandSource.ok (earlier : List ProgramLine) (wantSingle : Bool) : OperandSource → Bool
  | .half _ => !wantSingle
  | .single _ => wantSingle
  | .result k => (earlier[k]?.map fun l => l.resultIsSingle == wantSingle).getD false
  | .lo16 k => !wantSingle && (earlier[k]?.map fun l => l.resultIsSingle).getD false
  | .zext32 k => wantSingle && (earlier[k]?.map fun l => !l.resultIsSingle).getD false

/-- A line is well formed after the lines before it (R40). -/
def ProgramLine.ok (earlier : List ProgramLine) : ProgramLine → Bool
  | .decodeOf source => source.ok earlier false
  | .encodeOf source => source.ok earlier true

/-- A program is well formed when each of its lines is, after those before it. -/
def programOk (earlier : List ProgramLine) : List ProgramLine → Bool
  | [] => true
  | l :: ls => l.ok earlier && programOk (earlier ++ [l]) ls

/-- What the host reads as the line's result from the 32-bit word on `y`: all of it for DECODE, `y[15:0]` for ENCODE
(spec/30_encoding.md R36). -/
def resultOf (i : Instr) (y : BitVec 32) : LineResult :=
  match i with
  | .decode _ => .single y
  | .encode _ => .half (y.extractLsb' 0 16)

/-- How far the host got with a program: the results of the lines so far, and the machine's state. -/
structure ProgramRun where
  results : List LineResult
  state   : State
  deriving DecidableEq, Repr

/-- The host drives one line at a LATENCY = 0 JOINT build: it assembles the word, presents it, and samples `y`. None
where the line has no operand; the fault where the block gives no result. -/
def runLine (b : Build) (l : ProgramLine) (r : ProgramRun) : Option (Host.Outcome ProgramRun Fault Refusal) :=
  match l.instr r.results with
  | none => none
  | some i => some (andThen (stepOf b (r.state.present (encode i))) fun t =>
      match t.joint.result with
      | some y => .next { results := r.results ++ [resultOf i y], state := t }
      | none => .fault .inputNotDriven)

/-- The host drives a program, line after line. -/
def runProgram (b : Build) : List ProgramLine → ProgramRun → Option (Host.Outcome ProgramRun Fault Refusal)
  | [], r => some (.next r)
  | l :: ls, r =>
    match runLine b l r with
    | some (.next r') => runProgram b ls r'
    | o => o

end Sys2Proof.Machine
end

