-- ==== Sys2Proof/Safety.lean ====
section
/-! DEFINITION. What a safe step is. The block itself cannot fail (spec/60_exceptions.md R69): a step gives no result
only where the host leaves a wire undriven or does not hold the inputs (R72; spec/70_reset_and_hazards.md R85). -/

namespace Sys2Proof.Machine

/-- One of the wires 0..n-1 of the port is driven neither to 0 alone nor to 1 alone (R72, log entry 5). -/
def Port.Undriven {w : Nat} (p : Port w) (n : Nat) : Prop := ∃ i, i < n ∧ p.ones.getLsbD i = p.zeros.getLsbD i

/-- `op`, or a wire of `a` that the selected operation reads, is not driven (R72): DECODE reads `a[15:0]` and ENCODE
`a[31:0]` (spec/30_encoding.md R36). -/
def JointPorts.Undriven (p : JointPorts) : Prop :=
  p.op.Undriven 1 ∨ p.a.Undriven (if p.op.ones = 0#1 then 16 else 32)

/-- The host meets its duty at the JOINT unit of a LATENCY = 0 build: the inputs are held, and every wire that the
selected operation reads is driven. -/
def InputsReady (s : State) : Prop := s.joint.held = true ∧ s.joint.operand.word.isSome = true

/-- A step that gives a next state. -/
def SafeStep (s : State) : Prop := ∃ t : State, step s = .next t

/-- What a JOINT unit of this hardware may hold (R20, R21): no stage, and a result only of some transaction. -/
def State.Inv (s : State) : Prop :=
  s.wf Build.hardware = true ∧
  ∀ y : BitVec 32, s.joint.result = some y → ∃ T : Transaction, y = codec .propagateQuiet (opOf T) (operandOf T)

/-- The inputs of one clock cycle with `rst` = 0 on which a pipelined unit gives no fault (R72): `in_valid` is 0, or it
is 1 and every operand wire that is read is driven. -/
def CycleInputs.Ready {ι : Type} {w : Nat} (eval : ι → Option (BitVec w)) (c : CycleInputs ι) : Prop :=
  c.rst.read = some 0#1 ∧
  (c.inValid.read = some 0#1 ∨ (c.inValid.read = some 1#1 ∧ (eval c.operand).isSome = true))

/-- R86 for a unit of an L-stage build: a transaction with result v that is presented in a cycle, `rst` staying 0 for the
L - 1 cycles after it, gives `out_valid` = 1 and v on the result port L edges later. That is so whatever else those
cycles present, driven or not (R78); where all of it is driven, no cycle records a fault. -/
def ResultAppearsAfter {ι : Type} {w : Nat} (eval : ι → Option (BitVec w)) (L : Nat) : Prop :=
  ∀ (u : CodecUnit ι w) (c : CycleInputs ι) (later : List (CycleInputs ι)) (v : BitVec w),
    u.stages.length = L → c.rst.read = some 0#1 → c.inValid.read = some 1#1 → eval c.operand = some v →
    later.length + 1 = L → (∀ d ∈ later, d.rst.read = some 0#1) →
    (u.cyclesOn eval L (c :: later)).outValid = true ∧ (u.cyclesOn eval L (c :: later)).output eval L = some v ∧
    ((∀ d ∈ later, d.Ready eval) → u.cycles eval L (c :: later) = .next (u.cyclesOn eval L (c :: later)))

end Sys2Proof.Machine
end

