-- ==== Sys2Proof/Certificates/Slice0/Obligations.lean ====
section
/-! DEFINITION. The statements for the provers. R<n> are the rules of spec/; an entry is notes/assumptions/<n>.md. -/

open Sys2Proof Sys2Proof.Machine

/-! ### Transaction words -/

/-- R40, R35: the assembled word of an instruction decodes to it, also as a number of the opcode table. -/
def Obligations.DecodingTheAssembledWordGivesTheInstruction : Prop :=
  ∀ i : Instr, i.wellFormed = true → decodeWord (encode i) = i ∧ decodeTableWord 33 (encode i).toNat = some i

/-- R36, R40: a word is what its instruction assembles to, but for the bits `a[31:16]` of a DECODE: they are ignored (R36),
and R40's `zext_32` puts zeros there. -/
def Obligations.OnlyTheIgnoredBitsOfAWordAreLost : Prop :=
  ∀ T : Transaction, encode (decodeWord T) = if opOf T = 0#1 then T &&& 0x00000FFFF#33 else T

/-- R38: every word is legal and belongs to exactly one row of the opcode table, the row of what it decodes to; the bits
`a[31:16]` of a DECODE change nothing. -/
def Obligations.EveryWordSelectsExactlyOneOperation : Prop :=
  (∀ T : Transaction, (decodeWord T).wellFormed = true ∧
    ∃ r ∈ opcodeTable, r.covers T = true ∧ r.mnemonic = (decodeWord T).mnemonic ∧
      ∀ r' ∈ opcodeTable, r'.covers T = true → r' = r) ∧
  ∀ (high : BitVec 16) (h : Half), decodeWord (0#1 ++ (high ++ h)) = .decode h

/-- R39, entry 13: a number is decoded exactly when it fits the 33 bits of a transaction. -/
def Obligations.OnlyThirtyThreeBitNumbersDecode : Prop :=
  ∀ nbits w : Nat, decodeTableWord nbits w =
    if w % 2 ^ nbits < 2 ^ 33 then some (decodeWord (BitVec.ofNat 33 (w % 2 ^ nbits))) else none

/-- R35, R36: words of spec/95_test_vectors.md §2.3, written out from the encoding, decode to what they stand for. -/
def Obligations.WrittenWordsDecodeAsTheSpecSays : Prop :=
  decodeWord 0x000003C00#33 = .decode 0x3C00#16 ∧ decodeWord 0x0FFFF3C00#33 = .decode 0x3C00#16 ∧
  decodeWord 0x012347BFF#33 = .decode 0x7BFF#16 ∧ decodeWord 0x13F800000#33 = .encode 0x3F800000#32 ∧
  decodeWord 0x1C77FF000#33 = .encode 0xC77FF000#32 ∧ decodeWord 0x100003C00#33 = .encode 0x00003C00#32

/-! ### A step -/

/-- R20: a step runs the instruction that the transaction on the ports decodes to, and nothing around it. -/
def Obligations.StepRunsTheDecodedTransaction : Prop :=
  (∀ (s : State) (T : Transaction), s.joint.presented = some T → step s = exec (decodeWord T) s) ∧
  (∀ (s : State) (T : Transaction), step (s.present T) = exec (decodeWord T) (s.present T)) ∧
  (∀ (s : State) (nbits w : Nat) (i : Instr), decodeTableWord nbits w = some i →
    step (s.withFetchWord nbits w) = exec i (s.withFetchWord nbits w))

/-- R72, R85: a step of this hardware, and of every LATENCY = 0 build in either form, stops with the fault exactly when a
wire that the selected operation reads is not driven, or the inputs are not held (log entry 7). `a[31:16]` of a JOINT unit
under DECODE is not read; the SPLIT units read all of `h_in` and `f_in`. -/
def Obligations.StepFaultsExactlyWhenAReadWireIsNotDriven : Prop :=
  (∀ s : State, step s = .fault .inputNotDriven ↔ (s.joint.held = false ∨ s.joint.operand.Undriven)) ∧
  ∀ (b : Build) (s : State), b.latency = 0 →
    (b.form = .joint →
      (stepOf b s = .fault .inputNotDriven ↔ (s.joint.held = false ∨ s.joint.operand.Undriven))) ∧
    (b.form = .split → s.turn = .decodeUnit →
      (stepOf b s = .fault .inputNotDriven ↔ (s.decodeUnit.held = false ∨ s.decodeUnit.operand.Undriven 16))) ∧
    (b.form = .split → s.turn = .encodeUnit →
      (stepOf b s = .fault .inputNotDriven ↔ (s.encodeUnit.held = false ∨ s.encodeUnit.operand.Undriven 32)))

/-- R72, R85, R69: a step goes on exactly when the inputs are held (R85) and the wires that are read are driven (R72); no
operand can stop it. -/
def Obligations.AStepIsSafeExactlyWhenItsInputsAreReady : Prop :=
  ∀ s : State, SafeStep s ↔ InputsReady s

/-- R36: under DECODE the wires of `a[31:16]` have no effect, whatever state they are in. -/
def Obligations.IgnoredWiresHaveNoEffect : Prop :=
  ∀ (s : State) (p : JointPorts), p.op = s.joint.operand.op → p.op.read = some 0#1 →
    p.a.low16 = s.joint.operand.a.low16 →
    step { s with joint := { s.joint with operand := p } } =
      andThen (step s) fun t => .next { t with joint := { t.joint with operand := p } }

/-- Both instructions complete from every state, with the result the family's function gives (R50, R65); ENCODE drives
`y[31:16]` to 0 (R36). -/
def Obligations.BothInstructionsCompleteOnEveryOperand : Prop :=
  ∀ s : State,
    (∀ h : Half, exec (.decode h) s = .next (s.withResult (fp16ToFp32 .propagateQuiet h))) ∧
    (∀ f : Single, exec (.encode f) s = .next (s.withResult (0#16 ++ fp32ToFp16 .propagateQuiet f)))

/-- R25, R50, R65: a transaction changes its own result and nothing else of the state. -/
def Obligations.ATransactionChangesOnlyItsResult : Prop :=
  ∀ (i : Instr) (s t : State), exec i s = .next t →
    t.joint.operand = s.joint.operand ∧ t.joint.held = s.joint.held ∧ t.joint.clk = s.joint.clk ∧
    t.joint.clkWas = s.joint.clkWas ∧ t.joint.rst = s.joint.rst ∧ t.joint.inValid = s.joint.inValid ∧
    t.joint.stages = s.joint.stages ∧ t.joint.draws = s.joint.draws ∧ t.decodeUnit = s.decodeUnit ∧
    t.encodeUnit = s.encodeUnit ∧ t.turn = s.turn

/-- R25: evaluating a transaction twice is the same as evaluating it once. -/
def Obligations.EvaluatingTwiceIsEvaluatingOnce : Prop :=
  ∀ s t : State, step s = .next t → step t = .next t

/-- R18, R51: the result of a transaction is the same from every state, so no earlier transaction can be seen in it. -/
def Obligations.TheResultDependsOnTheTransactionAlone : Prop :=
  ∀ T : Transaction, ∃ y : BitVec 32, ∀ s : State, ∃ t : State,
    step (s.present T) = .next t ∧ t.joint.result = some y

/-- R20, R82, R85: what a step leaves as the result is what the output port `y` carries while the inputs stay as they
are, and where a step faults the port has no value. -/
def Obligations.TheResultIsTheOutputPort : Prop :=
  (∀ s t : State, step s = .next t →
    t.joint.operand = s.joint.operand ∧ t.joint.result = t.joint.output (jointEval .propagateQuiet) 0 ∧
    t.joint.result = s.joint.output (jointEval .propagateQuiet) 0 ∧ t.joint.result ≠ none) ∧
  (∀ s : State, step s = .fault .inputNotDriven → s.joint.output (jointEval .propagateQuiet) 0 = none)

/-! ### Reset and invariants -/

/-- R80: at reset this hardware has no stage. That no input is driven then is the model's choice (entry 9, DESIGN CHOICE;
R82 says what follows: a step gives no value), and so is the field of the result, none at reset (entry 8, DESIGN
CHOICE). The fields `turn`, `clkWas` and `draws` hold values the model chose (entries 3, 10, 11): nothing is stated of
them. -/
def Obligations.ResetLeavesNothingToReset : Prop :=
  State.reset.joint.stages = [] ∧ State.reset.decodeUnit.stages = [] ∧ State.reset.encodeUnit.stages = [] ∧
  State.reset.joint.result = none ∧ State.reset.joint.operand.op.driven = 0#1 ∧
  State.reset.joint.operand.a.driven = 0#32 ∧ step State.reset = .fault .inputNotDriven

/-- The invariant holds at reset. -/
def Obligations.ResetHasTheInvariant : Prop := State.reset.Inv

/-- R12, R20: from every state that has no stage and holds only results of transactions, a step gives such a state. -/
def Obligations.StepKeepsTheInvariant : Prop :=
  ∀ s t : State, s.Inv → step s = .next t → t.Inv

/-- R21, R81: every build has its L stages after reset and at power-on, and after reset every valid bit and `out_valid`
of every unit are 0. -/
def Obligations.EveryBuildStartsWithItsStages : Prop :=
  ∀ b : Build, (State.resetOf b).wf b = true ∧ (State.powerOnOf b).wf b = true ∧
    ((∀ g ∈ (State.resetOf b).joint.stages, g.v = false) ∧ (State.resetOf b).joint.outValid = false) ∧
    ((∀ g ∈ (State.resetOf b).decodeUnit.stages, g.v = false) ∧ (State.resetOf b).decodeUnit.outValid = false) ∧
    ((∀ g ∈ (State.resetOf b).encodeUnit.stages, g.v = false) ∧ (State.resetOf b).encodeUnit.outValid = false)

/-- R21: a step of a build, whatever it does and whatever fault it records, leaves every unit with the build's L stages. -/
def Obligations.EveryBuildKeepsItsStages : Prop :=
  ∀ (b : Build) (s : State), s.wf b = true →
    (∀ t : State, stepOf b s = .next t → t.wf b = true) ∧ (stepOnOf b s).after.wf b = true

/-- R69, R72: a step of any build answers a next state or the one fault, and never a refusal. -/
def Obligations.TheOnlyStopIsAnInputNotDriven : Prop :=
  ∀ (b : Build) (s : State), (∃ t : State, stepOf b s = .next t) ∨ stepOf b s = .fault .inputNotDriven

/-! ### DECODE -/

/-- R43: a signed zero. -/
def Obligations.DecodeOfASignedZero : Prop :=
  ∀ (h : Half) (s : State), h.extractLsb' 0 15 = 0#15 →
    exec (.decode h) s = .next (s.withResult (h.extractLsb' 15 1 ++ 0#31))

/-- R44 (without its sentence on the low bits of M, entry 16): a subnormal becomes a normal single of the same value. -/
def Obligations.DecodeOfASubnormal : Prop :=
  ∀ (h : Half) (s : State), exp16 h = 0#5 → frac16 h ≠ 0#10 →
    ∃ p : Nat, p ≤ 9 ∧ 2 ^ p ≤ (frac16 h).toNat ∧ (frac16 h).toNat < 2 ^ (p + 1) ∧
      ((frac16 h).toNat - 2 ^ p) * 2 ^ (23 - p) < 2 ^ 23 ∧
      ∃ f : Single, exec (.decode h) s = .next (s.withResult f) ∧
        f = h.extractLsb' 15 1 ++ BitVec.ofNat 8 (p + 103) ++
          BitVec.ofNat 23 (((frac16 h).toNat - 2 ^ p) * 2 ^ (23 - p)) ∧
        value32 f = .number (sign16 h == 1#1) (((frac16 h).toNat : ℚ) * 2 ^ (-24 : ℤ))

/-- R45: a normal. -/
def Obligations.DecodeOfANormal : Prop :=
  ∀ (h : Half) (s : State), 1 ≤ (exp16 h).toNat → (exp16 h).toNat ≤ 30 →
    ∃ f : Single, exec (.decode h) s = .next (s.withResult f) ∧
      f = h.extractLsb' 15 1 ++ BitVec.ofNat 8 ((exp16 h).toNat + 112) ++ h.extractLsb' 0 10 ++ 0#13 ∧
      113 ≤ (exp32 f).toNat ∧ (exp32 f).toNat ≤ 142 ∧ value32 f = value16 h

/-- R46: an infinity. -/
def Obligations.DecodeOfAnInfinity : Prop :=
  ∀ (h : Half) (s : State), exp16 h = 31#5 → frac16 h = 0#10 →
    exec (.decode h) s = .next (s.withResult (h.extractLsb' 15 1 ++ 0xFF#8 ++ 0#23))

/-- R47: a NaN decodes to a NaN, under every NAN_POLICY. -/
def Obligations.DecodeOfANaNIsANaN : Prop :=
  ∀ (policy : NanPolicy) (h : Half), isNaN16 h = true → isNaN32 (fp16ToFp32 policy h) = true

/-- R48: which NaN, by NAN_POLICY. -/
def Obligations.DecodeOfANaNFollowsThePolicy : Prop :=
  ∀ h : Half, isNaN16 h = true →
    fp16ToFp32 .propagateQuiet h = h.extractLsb' 15 1 ++ 0xFF#8 ++ 1#1 ++ h.extractLsb' 0 9 ++ 0#13 ∧
    fp16ToFp32 .propagateQuiet h = h.extractLsb' 15 1 ++ 0xFF#8 ++ (h.extractLsb' 0 10 ||| 0x200#10) ++ 0#13 ∧
    (class16 h = .quietNan →
      fp16ToFp32 .propagateQuiet h = h.extractLsb' 15 1 ++ 0xFF#8 ++ h.extractLsb' 0 10 ++ 0#13) ∧
    fp16ToFp32 .defaultNan h = 0x7FC00000#32 ∧
    fp16ToFp32 .anyNan h = patternOfNan32 (Config.nanDec h) ∧ isNaN32 (fp16ToFp32 .anyNan h) = true

/-- R49: DECODE is lossless on every half that is no NaN, injective there, and gives exactly the singles whose value is
representable in binary16. -/
def Obligations.DecodeIsLossless : Prop :=
  ∀ policy : NanPolicy,
    (∀ h : Half, isNaN16 h = false → value32 (fp16ToFp32 policy h) = value16 h) ∧
    (∀ h₁ h₂ : Half, isNaN16 h₁ = false → isNaN16 h₂ = false → fp16ToFp32 policy h₁ = fp16ToFp32 policy h₂ → h₁ = h₂) ∧
    (∀ f : Single, isNaN32 f = false →
      ((∃ h : Half, isNaN16 h = false ∧ fp16ToFp32 policy h = f) ↔
        ∃ h : Half, isNaN16 h = false ∧ value16 h = value32 f))

/-- R52: DECODE keeps the sign of every half that is no NaN; on a NaN the sign follows NAN_POLICY. -/
def Obligations.DecodeKeepsTheSign : Prop :=
  (∀ (policy : NanPolicy) (h : Half), isNaN16 h = false → sign32 (fp16ToFp32 policy h) = sign16 h) ∧
  (∀ h : Half, isNaN16 h = true →
    sign32 (fp16ToFp32 .propagateQuiet h) = sign16 h ∧ sign32 (fp16ToFp32 .defaultNan h) = 0#1)

/-- R53: the exponent field of a finite nonzero result is never 0 or 255: it is 103..142, so that no sum wraps. -/
def Obligations.DecodeNeverLeavesTheNormalRange : Prop :=
  ∀ (policy : NanPolicy) (h : Half), isFinite16 h = true → h.extractLsb' 0 15 ≠ 0#15 →
    class32 (fp16ToFp32 policy h) = .normal ∧ 103 ≤ (exp32 (fp16ToFp32 policy h)).toNat ∧
    (exp32 (fp16ToFp32 policy h)).toNat ≤ 142

/-! ### ENCODE -/

/-- R55: an infinity. -/
def Obligations.EncodeOfAnInfinity : Prop :=
  ∀ (f : Single) (s : State), exp32 f = 255#8 → frac32 f = 0#23 →
    exec (.encode f) s = .next (s.withResult (0#16 ++ (f.extractLsb' 31 1 ++ 0x1F#5 ++ 0#10)))

/-- R56: a NaN encodes to a NaN, under every NAN_POLICY, and never to an infinity. -/
def Obligations.EncodeOfANaNIsANaN : Prop :=
  ∀ (policy : NanPolicy) (f : Single), isNaN32 f = true →
    isNaN16 (fp32ToFp16 policy f) = true ∧ class16 (fp32ToFp16 policy f) ≠ .infinity

/-- R64: which NaN, by NAN_POLICY. -/
def Obligations.EncodeOfANaNFollowsThePolicy : Prop :=
  ∀ f : Single, isNaN32 f = true →
    fp32ToFp16 .propagateQuiet f = f.extractLsb' 31 1 ++ 0x1F#5 ++ 1#1 ++ f.extractLsb' 13 9 ∧
    fp32ToFp16 .propagateQuiet f = f.extractLsb' 31 1 ++ 0x1F#5 ++ (f.extractLsb' 13 10 ||| 0x200#10) ∧
    fp32ToFp16 .defaultNan f = 0x7E00#16 ∧
    fp32ToFp16 .anyNan f = patternOfNan16 (Config.nanEnc f) ∧ isNaN16 (fp32ToFp16 .anyNan f) = true

/-- R57: a zero or a binary32 subnormal encodes to the zero of its own sign. -/
def Obligations.EncodeOfAZeroOrSubnormal : Prop :=
  ∀ (f : Single) (s : State), exp32 f = 0#8 →
    exec (.encode f) s = .next (s.withResult (0#16 ++ (f.extractLsb' 31 1 ++ 0#15)))

/-- R58: ENCODE of a finite single is its value rounded to nearest, ties to even. -/
def Obligations.EncodeRoundsToNearestEven : Prop :=
  ∀ (policy : NanPolicy) (f : Single), isFinite32 f = true →
    value32 f = .number (sign32 f == 1#1) (magnitude32 f) ∧
    IsRne16 (sign32 f == 1#1) (magnitude32 f) (fp32ToFp16 policy f)

/-- R10: the rounding rule gives one pattern, so that RNE16 is a function. -/
def Obligations.TheRoundingRuleGivesOnePattern : Prop :=
  ∀ (negative : Bool) (x : ℚ) (r₁ r₂ : Half), 0 ≤ x → IsRne16 negative x r₁ → IsRne16 negative x r₂ → r₁ = r₂

/-- R59: the normal range, bit by bit. -/
def Obligations.EncodeInTheNormalRange : Prop :=
  ∀ (f : Single) (s : State), 113 ≤ (exp32 f).toNat → (exp32 f).toNat ≤ 142 →
    let kept := (f.extractLsb' 13 10).toNat
    let r := (f.extractLsb' 0 13).toNat
    let up := if 0x1000 < r ∨ (r = 0x1000 ∧ f.getLsbD 13 = true) then 1 else 0
    exec (.encode f) s = .next (s.withResult (0#16 ++
      (f.extractLsb' 31 1 ++ BitVec.ofNat 15 (((exp32 f).toNat - 112) * 2 ^ 10 + kept + up)))) ∧
    ((exp32 f).toNat - 112) * 2 ^ 10 + kept + up < 2 ^ 15

/-- R60: exactly the magnitudes of 65520 and more overflow to infinity; those in (65488, 65520) give 0x7BFF and 65488
gives 0x7BFE. -/
def Obligations.EncodeOverflowsFrom65520 : Prop :=
  ∀ (policy : NanPolicy) (f : Single), isFinite32 f = true →
    (fp32ToFp16 policy f = f.extractLsb' 31 1 ++ 0x1F#5 ++ 0#10 ↔ 65520 ≤ magnitude32 f) ∧
    (65520 ≤ magnitude32 f ↔ 0x477FF000#31 ≤ f.extractLsb' 0 31) ∧
    ((65488 < magnitude32 f ∧ magnitude32 f < 65520) ↔
      (0x477FD000#31 < f.extractLsb' 0 31 ∧ f.extractLsb' 0 31 < 0x477FF000#31)) ∧
    (65488 < magnitude32 f ∧ magnitude32 f < 65520 → fp32ToFp16 policy f = f.extractLsb' 31 1 ++ 0x7BFF#15) ∧
    (magnitude32 f = 65488 → fp32ToFp16 policy f = f.extractLsb' 31 1 ++ 0x7BFE#15)

/-- R61: the subnormal range: the fraction is `sig / 2^n` rounded to the nearest integer k, ties to even, and k = 2^10 is
the smallest normal by itself. -/
def Obligations.EncodeInTheSubnormalRange : Prop :=
  ∀ (policy : NanPolicy) (f : Single), 1 ≤ (exp32 f).toNat → (exp32 f).toNat ≤ 112 →
    let sig : Nat := 2 ^ 23 + (frac32 f).toNat
    let n := 126 - (exp32 f).toNat
    magnitude32 f = (sig : ℚ) / 2 ^ n * 2 ^ (-24 : ℤ) ∧ 14 ≤ n ∧
    ∃ k : Nat, k ≤ 2 ^ 10 ∧ fp32ToFp16 policy f = f.extractLsb' 31 1 ++ BitVec.ofNat 15 k ∧
      |(sig : ℚ) / 2 ^ n - k| ≤ 1 / 2 ∧ (|(sig : ℚ) / 2 ^ n - k| = 1 / 2 → k % 2 = 0) ∧ (25 ≤ n → k = 0)

/-- R62: exactly the magnitudes up to 2^-25 give the signed zero, and exactly those in (2^-25, 3 * 2^-25) give 0x0001. -/
def Obligations.EncodeUnderflowsUpToTwoToTheMinus25 : Prop :=
  ∀ (policy : NanPolicy) (f : Single), isFinite32 f = true →
    (fp32ToFp16 policy f = f.extractLsb' 31 1 ++ 0#15 ↔ magnitude32 f ≤ 2 ^ (-25 : ℤ)) ∧
    (magnitude32 f ≤ 2 ^ (-25 : ℤ) ↔ f.extractLsb' 0 31 ≤ 0x33000000#31) ∧
    (fp32ToFp16 policy f = f.extractLsb' 31 1 ++ 0x0001#15 ↔
      (2 ^ (-25 : ℤ) < magnitude32 f ∧ magnitude32 f < 3 * 2 ^ (-25 : ℤ))) ∧
    ((2 ^ (-25 : ℤ) < magnitude32 f ∧ magnitude32 f < 3 * 2 ^ (-25 : ℤ)) ↔
      (0x33000000#31 < f.extractLsb' 0 31 ∧ f.extractLsb' 0 31 < 0x33C00000#31))

/-- R63: ENCODE keeps the sign of every single that is no NaN; on a NaN the sign follows NAN_POLICY. -/
def Obligations.EncodeKeepsTheSign : Prop :=
  (∀ (policy : NanPolicy) (f : Single), isNaN32 f = false → sign16 (fp32ToFp16 policy f) = sign32 f) ∧
  (∀ f : Single, isNaN32 f = true →
    sign16 (fp32ToFp16 .propagateQuiet f) = sign32 f ∧ sign16 (fp32ToFp16 .defaultNan f) = 0#1)

/-- R66: the round trip of every half. -/
def Obligations.EncodeUndoesDecode : Prop :=
  ∀ h : Half,
    (isNaN16 h = false → ∀ policy : NanPolicy, fp32ToFp16 policy (fp16ToFp32 policy h) = h) ∧
    (isNaN16 h = true →
      fp32ToFp16 .propagateQuiet (fp16ToFp32 .propagateQuiet h) = h ||| 0x0200#16 ∧
      fp32ToFp16 .defaultNan (fp16ToFp32 .defaultNan h) = 0x7E00#16 ∧
      isNaN16 (fp32ToFp16 .anyNan (fp16ToFp32 .anyNan h)) = true)

/-- R67, nearest: no finite half is nearer to a value below the overflow threshold than the one ENCODE gives. -/
def Obligations.NoFiniteHalfIsNearer : Prop :=
  ∀ (policy : NanPolicy) (f : Single), isFinite32 f = true → magnitude32 f < 65520 →
    isFinite16 (fp32ToFp16 policy f) = true ∧
    ∀ h : Half, isFinite16 h = true →
      |(if sign32 f = 1#1 then -magnitude32 f else magnitude32 f) -
          (if sign16 (fp32ToFp16 policy f) = 1#1 then -magnitude16 (fp32ToFp16 policy f)
            else magnitude16 (fp32ToFp16 policy f))| ≤
        |(if sign32 f = 1#1 then -magnitude32 f else magnitude32 f) -
          (if sign16 h = 1#1 then -magnitude16 h else magnitude16 h)|

/-- R67, monotone: ENCODE keeps the order of values, with -0 = +0. -/
def Obligations.EncodeIsMonotone : Prop :=
  ∀ (policy : NanPolicy) (f₁ f₂ : Single), isNaN32 f₁ = false → isNaN32 f₂ = false →
    (value32 f₁).le (value32 f₂) → (value16 (fp32ToFp16 policy f₁)).le (value16 (fp32ToFp16 policy f₂))

/-- R67, projection: encoding, decoding and encoding again changes nothing more. But decoding does not undo encoding. -/
def Obligations.EncodeIsAProjectionAndNoLeftInverse : Prop :=
  ∀ policy : NanPolicy,
    (∀ f : Single, isNaN32 f = false →
      fp32ToFp16 policy (fp16ToFp32 policy (fp32ToFp16 policy f)) = fp32ToFp16 policy f) ∧
    ∃ f : Single, fp16ToFp32 policy (fp32ToFp16 policy f) ≠ f

/-- R68: the bounds of ENCODE's arithmetic: what is narrowed to 15 bits fits them, and only a NaN encodes to a NaN. -/
def Obligations.EncodeArithmeticStaysInBounds : Prop :=
  ∀ (policy : NanPolicy) (f : Single), isNaN32 f = false →
    significand f < 2 ^ 24 ∧ isNaN16 (fp32ToFp16 policy f) = false ∧
    (isFinite32 f = true → -14 ≤ unbiasedExponent f →
      1024 ≤ significand f >>> 13 ∧ significand f >>> 13 ≤ 2047 ∧
      (unbiasedExponent f + 15).toNat * 2 ^ 10 + (roundHalfEven (significand f) 13 - 2 ^ 10) < 2 ^ 18 ∧
      normalMagnitude (significand f) (unbiasedExponent f) ≤ 0x7C00) ∧
    (isFinite32 f = true → unbiasedExponent f < -14 →
      significand f >>> (-unbiasedExponent f - 1).toNat ≤ 2 ^ 10 - 1 ∧
      subnormalMagnitude (significand f) (unbiasedExponent f) ≤ 2 ^ 10)

/-- R70, R71: the inexact condition holds exactly when DECODE(ENCODE(f)) differs from f, and the overflow condition exactly
when a finite single gives an infinity. -/
def Obligations.InexactAndOverflowAreReadOffTheResult : Prop :=
  ∀ (policy : NanPolicy) (f : Single), isNaN32 f = false →
    ((conditionsOfEncode policy f).inexact = true ↔ fp16ToFp32 policy (fp32ToFp16 policy f) ≠ f) ∧
    ((conditionsOfEncode policy f).overflow = true ↔
      (isFinite32 f = true ∧ class16 (fp32ToFp16 policy f) = .infinity))

/-- R31: landmarks of binary16. -/
def Obligations.LandmarksOfBinary16 : Prop :=
  value16 0x0001#16 = .number false (2 ^ (-24 : ℤ)) ∧ value16 0x03FF#16 = .number false (1023 * 2 ^ (-24 : ℤ)) ∧
  value16 0x0400#16 = .number false (2 ^ (-14 : ℤ)) ∧ value16 0x3C00#16 = .number false 1 ∧
  value16 0x7BFF#16 = .number false 65504 ∧ value16 0x8000#16 = .number true 0 ∧ value16 0xFC00#16 = .infinity true

/-- R33: landmarks of binary32. -/
def Obligations.LandmarksOfBinary32 : Prop :=
  value32 0x3F800000#32 = .number false 1 ∧ value32 0x33800000#32 = .number false (2 ^ (-24 : ℤ)) ∧
  value32 0x33000000#32 = .number false (2 ^ (-25 : ℤ)) ∧ value32 0x38800000#32 = .number false (2 ^ (-14 : ℤ)) ∧
  value32 0x477FE000#32 = .number false 65504 ∧ value32 0x477FF000#32 = .number false 65520 ∧
  value32 0x7F800000#32 = .infinity false ∧ value32 0x7FC00000#32 = .nan

/-! ### Builds -/

/-- R7: the machine of this row is the build JOINT, LATENCY 0, PROPAGATE_QUIET of the family. -/
def Obligations.StepIsTheBuildOfThisHardware : Prop :=
  Build.hardware = { nanPolicy := .propagateQuiet, form := .joint, latency := 0 } ∧
  State.reset = State.resetOf Build.hardware ∧ ∀ s : State, step s = stepOf Build.hardware s

/-- R20: with LATENCY = 0, `y = CODEC(op, a)` in the JOINT form, and `f_out = DECODE(h_in)` and `h_out = ENCODE(f_in)`
in the SPLIT form, which are the same functions. -/
def Obligations.EveryFormComputesCodec : Prop :=
  ∀ (b : Build) (s : State), b.latency = 0 →
    (b.form = .joint → ∀ T : Transaction,
      stepOf b (s.present T) =
        .next ((s.present T).withResult (codec b.nanPolicy (opOf T) (operandOf T)))) ∧
    (b.form = .split → s.turn = .decodeUnit → s.decodeUnit.held = true → ∀ (h : Half) (high : BitVec 16),
      s.decodeUnit.operand = Port.drive h →
      stepOf b s = .next { s with decodeUnit :=
        { s.decodeUnit with result := some (codec b.nanPolicy 0#1 (high ++ h)) } }) ∧
    (b.form = .split → s.turn = .encodeUnit → s.encodeUnit.held = true → ∀ f : Single,
      s.encodeUnit.operand = Port.drive f →
      ∃ h : Half, stepOf b s = .next { s with encodeUnit := { s.encodeUnit with result := some h } } ∧
        0#16 ++ h = codec b.nanPolicy 1#1 f)

/-- R78: a step of a build, also one that records a fault, changes only the unit it is a step of. -/
def Obligations.AUnitStepLeavesTheOtherUnitsAlone : Prop :=
  ∀ (b : Build) (s t : State), stepOf b s = .next t ∨ (stepOnOf b s).after = t →
    t.turn = s.turn ∧
    (b.form = .joint → t.decodeUnit = s.decodeUnit ∧ t.encodeUnit = s.encodeUnit) ∧
    (b.form = .split → s.turn = .decodeUnit → t.joint = s.joint ∧ t.encodeUnit = s.encodeUnit) ∧
    (b.form = .split → s.turn = .encodeUnit → t.joint = s.joint ∧ t.decodeUnit = s.decodeUnit)

/-! ### Pipelined builds -/

/-- R72 for a pipelined unit (an undriven `clk`, `rst` or `in_valid` is entry 6). A unit of either form has no result for
its operand exactly when a wire that the operation reads is not driven. A rising edge faults exactly when it reads a wire
that is not driven; the operand is read only with `rst` = 0 and `in_valid` = 1. A step faults exactly when `clk` is not
driven or its rising edge faults. -/
def Obligations.AnEdgeReadsTheOperandOnlyWhenValid : Prop :=
  (∀ policy : NanPolicy,
    (∀ p : JointPorts, jointEval policy p = none ↔ p.Undriven) ∧
    (∀ hIn : Port 16, decodeUnitEval policy hIn = none ↔ hIn.Undriven 16) ∧
    (∀ fIn : Port 32, encodeUnitEval policy fIn = none ↔ fIn.Undriven 32)) ∧
  ∀ (ι : Type) (w L : Nat) (eval : ι → Option (BitVec w)) (u : CodecUnit ι w),
    (u.risingEdge eval L = .fault .inputNotDriven ↔
      (u.rst.read = none ∨ (u.rst.read = some 0#1 ∧
        (u.inValid.read = none ∨ (u.inValid.read = some 1#1 ∧ eval u.operand = none))))) ∧
    (u.clocked eval L = .fault .inputNotDriven ↔
      (u.clk.read = none ∨ (u.clk.read = some 1#1 ∧ u.clkWas = false ∧
        u.risingEdge eval L = .fault .inputNotDriven)))

/-- R21, R72, R78: what a rising edge does to the stages, whatever is or is not driven, and what the output ports are. With
`rst` = 0 every stage advances; a valid transaction whose operand is not driven goes in with the fault recorded and no
value, and the others in flight keep theirs. -/
def Obligations.EveryStageAdvancesAtEveryEdge : Prop :=
  ∀ (ι : Type) (w L : Nat) (eval : ι → Option (BitVec w)) (u t : CodecUnit ι w),
    0 < L → u.stages.length = L → (u.risingEdgeOn eval L).after = t →
    t.stages.length = L ∧
    (∀ t' : CodecUnit ι w, u.risingEdge eval L = .next t' → t' = t) ∧
    (u.rst.read = some 1#1 → ∀ g ∈ t.stages, g.v = false) ∧
    (u.rst.read = some 0#1 →
      (∀ k : Nat, k + 1 < L → t.stages[k + 1]? = u.stages[k]?) ∧
      (u.inValid.read = some 1#1 → ∀ v : BitVec w, eval u.operand = some v →
        u.risingEdge eval L = .next t ∧ t.stages[0]? = some { v := true, r := v, fault := none }) ∧
      (u.inValid.read = some 1#1 → eval u.operand = none →
        ∃ g : Stage w, t.stages[0]? = some g ∧ g.v = true ∧ g.value = none ∧ g.fault = some .inputNotDriven) ∧
      (u.inValid.read = some 0#1 →
        u.risingEdge eval L = .next t ∧ ∃ g : Stage w, t.stages[0]? = some g ∧ g.v = false ∧ g.fault = none)) ∧
    (∃ g : Stage w, t.stages[L - 1]? = some g ∧ t.outValid = g.v ∧ t.output eval L = g.value)

/-- R19, R21: a step of a pipelined build at which its unit's `clk` does not rise changes nothing but the level last seen,
and a level that is seen, whatever fault its step records, is no rising edge again. A step at which `clk` rises takes the
rising edge, with the state and the fault that it leaves, and notes the level: so does the step of every pipelined build,
at the unit it is a step of. -/
def Obligations.StateChangesOnlyAtARisingEdge : Prop :=
  (∀ (b : Build) (s t : State), 0 < b.latency → stepOf b s = .next t →
    (b.form = .joint → s.joint.clkWas = true ∨ s.joint.clk.read = some 0#1 →
      t = { s with joint := { s.joint with clkWas := t.joint.clkWas } }) ∧
    (b.form = .split → s.turn = .decodeUnit → s.decodeUnit.clkWas = true ∨ s.decodeUnit.clk.read = some 0#1 →
      t = { s with decodeUnit := { s.decodeUnit with clkWas := t.decodeUnit.clkWas } }) ∧
    (b.form = .split → s.turn = .encodeUnit → s.encodeUnit.clkWas = true ∨ s.encodeUnit.clk.read = some 0#1 →
      t = { s with encodeUnit := { s.encodeUnit with clkWas := t.encodeUnit.clkWas } })) ∧
  (∀ (ι : Type) (w L : Nat) (eval : ι → Option (BitVec w)) (u : CodecUnit ι w) (level : BitVec 1),
    u.clk.read = some level →
    (u.clockedOn eval L).after.clkWas = (level == 1#1) ∧
    (u.clockedOn eval L).after.clockedOn eval L = { after := (u.clockedOn eval L).after, fault := none } ∧
    (¬(level = 1#1 ∧ u.clkWas = false) →
      u.clockedOn eval L = { after := { u with clkWas := level == 1#1 }, fault := none }) ∧
    (level = 1#1 → u.clkWas = false →
      u.clockedOn eval L = (u.risingEdgeOn eval L).map fun u' => { u' with clkWas := true })) ∧
  (∀ (b : Build) (s : State), 0 < b.latency →
    stepOf b s = (stepOnOf b s).outcome ∧
    (b.form = .joint →
      stepOnOf b s = (s.joint.clockedOn (jointEval b.nanPolicy) b.latency).map fun u => { s with joint := u }) ∧
    (b.form = .split → s.turn = .decodeUnit →
      stepOnOf b s = (s.decodeUnit.clockedOn (decodeUnitEval b.nanPolicy) b.latency).map fun u =>
        { s with decodeUnit := u }) ∧
    (b.form = .split → s.turn = .encodeUnit →
      stepOnOf b s = (s.encodeUnit.clockedOn (encodeUnitEval b.nanPolicy) b.latency).map fun u =>
        { s with encodeUnit := u }))

/-- R86, R78: in a build with LATENCY = L > 0 a result appears L edges after its transaction, whatever the operation and
operand, in every unit of either form, and whatever other transactions find undriven; with L = 0 it is there at once,
and this hardware's L is 0. -/
def Obligations.AResultAppearsAfterLatencyEdges : Prop :=
  ∀ policy : NanPolicy,
    (∀ L : Nat, 0 < L →
      ResultAppearsAfter (jointEval policy) L ∧ ResultAppearsAfter (decodeUnitEval policy) L ∧
      ResultAppearsAfter (encodeUnitEval policy) L) ∧
    (∀ T : Transaction, jointEval policy (JointPorts.drive T) = some (codec policy (opOf T) (operandOf T))) ∧
    (∀ (u : CodecUnit JointPorts 32) (T : Transaction), u.held = true → u.operand = JointPorts.drive T →
      u.step (jointEval policy) 0 = .next { u with result := some (codec policy (opOf T) (operandOf T)) }) ∧
    Build.hardware.latency = 0

/-- R81: an edge with `rst` = 1 clears every valid bit and discards what is presented with it: `out_valid` stays 0 for as
long as nothing valid is presented, and for fewer than L edges whatever is. -/
def Obligations.ResetDiscardsWhatIsInFlight : Prop :=
  ∀ (ι : Type) (w L : Nat) (eval : ι → Option (BitVec w)) (u : CodecUnit ι w),
    0 < L → u.stages.length = L → u.rst.read = some 1#1 →
    ∃ t : CodecUnit ι w, u.risingEdge eval L = .next t ∧ t.stages.length = L ∧ t.outValid = false ∧
      (∀ g ∈ t.stages, g.v = false) ∧
      ∀ (later : List (CycleInputs ι)) (t' : CodecUnit ι w),
        t.cycles eval L later = .next t' ∨ t.cyclesOn eval L later = t' →
        (∀ c ∈ later, c.rst.read = some 0#1) →
        (later.length < L ∨ ∀ c ∈ later, c.inValid.read = some 0#1) → t'.outValid = false

/-! ### Instances and programs -/

/-- R27, R78: steps of two instances, of any builds, give the same system in either order, wherever they stand in a
schedule, and a step of one is the step of its own build, and leaves every other as it is. That this holds of a step that
faults too is the model's reading of R75 and R78 (entry 17). -/
def Obligations.InstancesNeedNoSynchronisation : Prop :=
  ∀ (i j : Nat) (system : List Instance), i ≠ j →
    stepInstance j (stepInstance i system) = stepInstance i (stepInstance j system) ∧
    (∀ before later : List Nat,
      runSchedule (before ++ i :: j :: later) system = runSchedule (before ++ j :: i :: later) system) ∧
    (stepInstance i system)[j]? = system[j]? ∧
    (stepInstance i system)[i]? = system[i]?.map fun x =>
      { x with state := (stepOnOf x.build x.state).after, fault := (stepOnOf x.build x.state).fault }

/-- R27: any interleaving of any transactions at LATENCY = 0 instances, JOINT and SPLIT ones mixed, gives each transaction
the CODEC of its own operand, under the NAN_POLICY of its instance. -/
def Obligations.AnyInterleavingGivesEachItsCodec : Prop :=
  ∀ (transactions : List ScheduledTransaction) (system : List Instance),
    (∀ x ∈ system, x.build.latency = 0) → (∀ e ∈ transactions, e.index < system.length) →
    runTransactions transactions system = transactions.map fun e =>
      system[e.index]?.map fun x => codec x.build.nanPolicy (opOf e.word) (operandOf e.word)

/-- R40, R34, entry 15: a well-formed program of transactions (lines named by number, one line a step) runs to its end at
every LATENCY = 0 JOINT build, with a result for every line. -/
def Obligations.AWellFormedProgramRunsToItsEnd : Prop :=
  ∀ (b : Build) (program : List ProgramLine) (s : State), b.form = .joint → b.latency = 0 →
    programOk [] program = true →
    ∃ r : ProgramRun, runProgram b program { results := [], state := s } = some (.next r) ∧
      r.results.length = program.length
end

