-- ==== Sys2Proof/Laws/Formats.lean ====
section
/-! SUPPORT. Fields of packed words, and the NaNs that a free value stands for. -/

namespace Sys2Proof.Machine

section fields
variable (s : BitVec 1)

@[simp] theorem sign16_pack16 (e : BitVec 5) (m : BitVec 10) : sign16 (pack16 s e m) = s := by
  ext i hi
  obtain rfl : i = 0 := by omega
  simp only [sign16, pack16, BitVec.getElem_extractLsb', BitVec.getLsbD_append]
  simp [BitVec.getLsbD_eq_getElem]

@[simp] theorem exp16_pack16 (e : BitVec 5) (m : BitVec 10) : exp16 (pack16 s e m) = e := by
  ext i hi
  simp only [exp16, pack16, BitVec.getElem_extractLsb', BitVec.getLsbD_append]
  rw [if_neg (by omega), if_pos (by omega), show 10 + i - 10 = i by omega, BitVec.getLsbD_eq_getElem (by omega)]

@[simp] theorem frac16_pack16 (e : BitVec 5) (m : BitVec 10) : frac16 (pack16 s e m) = m := by
  ext i hi
  simp only [frac16, pack16, BitVec.getElem_extractLsb', BitVec.getLsbD_append]
  rw [if_pos (by omega), show 0 + i = i by omega, BitVec.getLsbD_eq_getElem (by omega)]

@[simp] theorem sign32_pack32 (e : BitVec 8) (m : BitVec 23) : sign32 (pack32 s e m) = s := by
  ext i hi
  obtain rfl : i = 0 := by omega
  simp only [sign32, pack32, BitVec.getElem_extractLsb', BitVec.getLsbD_append]
  simp [BitVec.getLsbD_eq_getElem]

@[simp] theorem exp32_pack32 (e : BitVec 8) (m : BitVec 23) : exp32 (pack32 s e m) = e := by
  ext i hi
  simp only [exp32, pack32, BitVec.getElem_extractLsb', BitVec.getLsbD_append]
  rw [if_neg (by omega), if_pos (by omega), show 23 + i - 23 = i by omega, BitVec.getLsbD_eq_getElem (by omega)]

@[simp] theorem frac32_pack32 (e : BitVec 8) (m : BitVec 23) : frac32 (pack32 s e m) = m := by
  ext i hi
  simp only [frac32, pack32, BitVec.getElem_extractLsb', BitVec.getLsbD_append]
  rw [if_pos (by omega), show 0 + i = i by omega, BitVec.getLsbD_eq_getElem (by omega)]

end fields

/-- A half is its three fields. -/
theorem pack16_fields (h : Half) : pack16 (sign16 h) (exp16 h) (frac16 h) = h := by
  ext i hi
  simp only [pack16, sign16, exp16, frac16, BitVec.getElem_eq_testBit_toNat, BitVec.toNat_append, BitVec.extractLsb'_toNat]
  simp only [Nat.testBit_or, Nat.testBit_shiftLeft, Nat.testBit_mod_two_pow, Nat.testBit_shiftRight]
  rcases (by omega : i < 10 ∨ (10 ≤ i ∧ i < 15) ∨ i = 15) with h1 | ⟨h1, h2⟩ | h1
  · simp [h1, show ¬ 10 ≤ i by omega]
  · simp [h1, show ¬ i < 10 by omega, show i - 10 < 5 by omega, show ¬ 5 ≤ i - 10 by omega, show 10 + (i - 10) = i by omega]
  · subst h1; simp

/-- A single is its three fields. -/
theorem pack32_fields (f : Single) : pack32 (sign32 f) (exp32 f) (frac32 f) = f := by
  ext i hi
  simp only [pack32, sign32, exp32, frac32, BitVec.getElem_eq_testBit_toNat, BitVec.toNat_append, BitVec.extractLsb'_toNat]
  simp only [Nat.testBit_or, Nat.testBit_shiftLeft, Nat.testBit_mod_two_pow, Nat.testBit_shiftRight]
  rcases (by omega : i < 23 ∨ (23 ≤ i ∧ i < 31) ∨ i = 31) with h1 | ⟨h1, h2⟩ | h1
  · simp [h1, show ¬ 23 ≤ i by omega]
  · simp [h1, show ¬ i < 23 by omega, show i - 23 < 8 by omega, show ¬ 8 ≤ i - 23 by omega, show 23 + (i - 23) = i by omega]
  · subst h1; simp

/-- A free binary32 NaN is a NaN, whatever it is (spec/40_decode_fp16_to_fp32.md R48). -/
theorem isNaN32_patternOfNan32 (n : Nan32) : isNaN32 (patternOfNan32 n) = true := by
  have hn := n.fracPred.isLt
  have : BitVec.ofNat 23 (n.fracPred.val + 1) ≠ 0#23 := by
    intro h
    have := congrArg BitVec.toNat h
    simp only [BitVec.toNat_ofNat] at this
    omega
  simp [isNaN32, patternOfNan32, this]

/-- A free binary16 NaN is a NaN, whatever it is (spec/41_encode_fp32_to_fp16.md R64). -/
theorem isNaN16_patternOfNan16 (n : Nan16) : isNaN16 (patternOfNan16 n) = true := by
  have hn := n.fracPred.isLt
  have : BitVec.ofNat 10 (n.fracPred.val + 1) ≠ 0#10 := by
    intro h
    have := congrArg BitVec.toNat h
    simp only [BitVec.toNat_ofNat] at this
    omega
  simp [isNaN16, patternOfNan16, this]

end Sys2Proof.Machine
end

