-- ==== Sys2Proof/Laws/Instances.lean ====
section
/-! SUPPORT. What a step of a system of instances never changes: how many there are, and what they are built as. -/

namespace Sys2Proof.Machine

@[simp] theorem Instance.step_build (x : Instance) : x.step.build = x.build := rfl
@[simp] theorem Instance.step_state (x : Instance) : x.step.state = (stepOnOf x.build x.state).after := rfl
@[simp] theorem Instance.step_fault (x : Instance) : x.step.fault = (stepOnOf x.build x.state).fault := rfl

@[simp] theorem stepInstance_length (k : Nat) (system : List Instance) :
    (stepInstance k system).length = system.length := by
  unfold stepInstance
  cases system[k]? <;> simp

@[simp] theorem transact_length (e : ScheduledTransaction) (system : List Instance) :
    (transact e system).length = system.length := by
  unfold transact
  cases system[e.index]? <;> simp

/-- A transaction leaves every instance the build it has. -/
theorem transact_build (e : ScheduledTransaction) (system : List Instance) (k : Nat) :
    (transact e system)[k]?.map Instance.build = system[k]?.map Instance.build := by
  unfold transact
  cases h : system[e.index]? with
  | none => rfl
  | some x =>
    obtain ⟨hlt, hx⟩ := List.getElem?_eq_some_iff.1 h
    by_cases hk : e.index = k
    · subst hk; simp [hlt, hx]
    · simp [hk]

end Sys2Proof.Machine
end

