-- ==== Sys2Proof/Laws/State.lean ====
section
/-! SUPPORT. One lemma per field of each update of State, so that proofs need not unfold the updates. -/

namespace Sys2Proof.Machine

section withResult
variable (s : State) (y : BitVec 32)

@[simp] theorem State.withResult_result : (s.withResult y).joint.result = some y := rfl
@[simp] theorem State.withResult_operand : (s.withResult y).joint.operand = s.joint.operand := rfl
@[simp] theorem State.withResult_held : (s.withResult y).joint.held = s.joint.held := rfl
@[simp] theorem State.withResult_clk : (s.withResult y).joint.clk = s.joint.clk := rfl
@[simp] theorem State.withResult_clkWas : (s.withResult y).joint.clkWas = s.joint.clkWas := rfl
@[simp] theorem State.withResult_rst : (s.withResult y).joint.rst = s.joint.rst := rfl
@[simp] theorem State.withResult_inValid : (s.withResult y).joint.inValid = s.joint.inValid := rfl
@[simp] theorem State.withResult_stages : (s.withResult y).joint.stages = s.joint.stages := rfl
@[simp] theorem State.withResult_draws : (s.withResult y).joint.draws = s.joint.draws := rfl
@[simp] theorem State.withResult_decodeUnit : (s.withResult y).decodeUnit = s.decodeUnit := rfl
@[simp] theorem State.withResult_encodeUnit : (s.withResult y).encodeUnit = s.encodeUnit := rfl
@[simp] theorem State.withResult_turn : (s.withResult y).turn = s.turn := rfl
@[simp] theorem State.withResult_presented : (s.withResult y).joint.presented = s.joint.presented := rfl
@[simp] theorem State.withResult_withResult (z : BitVec 32) :
    (s.withResult y).withResult z = s.withResult z := rfl

end withResult

section present
variable (s : State) (T : Transaction)

@[simp] theorem State.present_operand : (s.present T).joint.operand = JointPorts.drive T := rfl
@[simp] theorem State.present_held : (s.present T).joint.held = true := rfl
@[simp] theorem State.present_clk : (s.present T).joint.clk = s.joint.clk := rfl
@[simp] theorem State.present_clkWas : (s.present T).joint.clkWas = s.joint.clkWas := rfl
@[simp] theorem State.present_rst : (s.present T).joint.rst = s.joint.rst := rfl
@[simp] theorem State.present_inValid : (s.present T).joint.inValid = s.joint.inValid := rfl
@[simp] theorem State.present_stages : (s.present T).joint.stages = s.joint.stages := rfl
@[simp] theorem State.present_result : (s.present T).joint.result = s.joint.result := rfl
@[simp] theorem State.present_draws : (s.present T).joint.draws = s.joint.draws := rfl
@[simp] theorem State.present_decodeUnit : (s.present T).decodeUnit = s.decodeUnit := rfl
@[simp] theorem State.present_encodeUnit : (s.present T).encodeUnit = s.encodeUnit := rfl
@[simp] theorem State.present_turn : (s.present T).turn = s.turn := rfl
@[simp] theorem State.present_present (U : Transaction) : (s.present T).present U = s.present U := rfl

theorem State.present_withResult (y : BitVec 32) :
    (s.withResult y).present T = (s.present T).withResult y := rfl

end present

end Sys2Proof.Machine
end

