-- ==== Sys2Proof/Laws/Ops.lean ====
section
/-! SUPPORT. What each shared operation can do, said once. -/

namespace Sys2Proof.Machine

/-! ### Ports -/

theorem xor_complement {w : Nat} (v : BitVec w) : v ^^^ ~~~v = BitVec.allOnes w := by
  ext i hi
  simp

@[simp] theorem Port.driven_drive {w : Nat} (v : BitVec w) : (Port.drive v).driven = BitVec.allOnes w :=
  xor_complement v

@[simp] theorem Port.read_drive {w : Nat} (v : BitVec w) : (Port.drive v).read = some v := by
  simp [Port.read, Port.drive, Port.driven, xor_complement]

@[simp] theorem Port.low16_drive (v : BitVec 32) : (Port.drive v).low16 = Port.drive (v.extractLsb' 0 16) := by
  simp only [Port.low16, Port.drive, Port.mk.injEq, true_and]
  ext i hi
  simp [BitVec.getElem_extractLsb']
  omega

/-- A port reads as v exactly when it is driven to v. -/
theorem Port.read_eq_some_iff {w : Nat} (p : Port w) (v : BitVec w) : p.read = some v ↔ p = Port.drive v := by
  constructor
  · intro h
    unfold Port.read at h
    split at h
    · next hd =>
      cases h
      cases p with
      | mk ones zeros =>
        simp only [Port.driven] at hd
        simp only [Port.drive, Port.mk.injEq, true_and]
        have : zeros = ones ^^^ (ones ^^^ zeros) := by rw [← BitVec.xor_assoc]; simp
        rw [this, hd]; simp
    · cases h
  · rintro rfl; simp

/-- A port reads as nothing exactly when one of its wires is not driven. -/
theorem Port.read_eq_none_iff {w : Nat} (p : Port w) :
    p.read = none ↔ ∃ i, i < w ∧ p.driven.getLsbD i = false := by
  unfold Port.read
  split
  · next h =>
    simp only [reduceCtorEq, h, false_iff, not_exists, not_and]
    intro i hi
    simp [hi]
  · next h =>
    simp only [true_iff]
    refine Classical.byContradiction fun hc => h ?_
    ext i hi
    have := fun hf => hc ⟨i, hi, hf⟩
    simp only [BitVec.getLsbD_eq_getElem hi] at this
    simpa using this

/-- A port reads as nothing exactly when one of all its wires is not driven. -/
theorem Port.undriven_iff_read {w : Nat} (p : Port w) : p.Undriven w ↔ p.read = none := by
  rw [Port.read_eq_none_iff]
  simp [Port.Undriven, Port.driven]

/-- The wires that DECODE reads of a JOINT unit's `a` are the port's first 16. -/
theorem Port.undriven_low16 (p : Port 32) : p.low16.Undriven 16 ↔ p.Undriven 16 := by
  refine exists_congr fun i => and_congr_right fun hi => ?_
  simp [Port.low16, hi]

/-- The word read from ports that are driven to T: T itself for ENCODE, T without its ignored bits for DECODE. -/
theorem JointPorts.word_drive (T : Transaction) :
    (JointPorts.drive T).word =
      some (if T.extractLsb' 32 1 = 0#1 then 0#1 ++ (0#16 ++ (T.extractLsb' 0 32).extractLsb' 0 16)
        else 1#1 ++ T.extractLsb' 0 32) := by
  simp only [JointPorts.word, JointPorts.drive, Port.read_drive, Port.low16_drive]
  split <;> simp

@[simp] theorem CodecUnit.presented_present (s : State) (T : Transaction) :
    (s.present T).joint.presented = (JointPorts.drive T).word := rfl

/-! ### Outcomes -/

theorem andThen_eq_next {σ τ : Type} {o : Host.Outcome σ Fault Refusal} {k : σ → Host.Outcome τ Fault Refusal} {t : τ} :
    andThen o k = .next t ↔ ∃ s, o = .next s ∧ k s = .next t := by
  cases o <;> simp [andThen]

section advance
variable {σ τ : Type} {x : Advance σ}

@[simp] theorem Advance.map_after (f : σ → τ) : (x.map f).after = f x.after := rfl
@[simp] theorem Advance.map_fault (f : σ → τ) : (x.map f).fault = x.fault := rfl

/-- An outcome is next exactly where no fault was recorded, and then it is the state the machine goes on from. -/
theorem Advance.outcome_eq_next {t : σ} : x.outcome = .next t ↔ x.fault = none ∧ x.after = t := by
  unfold Advance.outcome
  cases x.fault <;> simp

/-- An outcome is a fault exactly where that fault was recorded. -/
theorem Advance.outcome_eq_fault {r : Fault} : x.outcome = .fault r ↔ x.fault = some r := by
  unfold Advance.outcome
  cases x.fault <;> simp

/-- An outcome is never a refusal. -/
theorem Advance.outcome_total : (∃ t, x.outcome = .next t) ∨ x.outcome = .fault .inputNotDriven := by
  unfold Advance.outcome
  match x.fault with
  | none => exact .inl ⟨_, rfl⟩
  | some .inputNotDriven => exact .inr rfl

end advance

/-! ### Units -/

section units
variable {ι : Type} {w : Nat} {eval : ι → Option (BitVec w)} {L : Nat} {u t : CodecUnit ι w}

/-- A LATENCY = 0 unit answers next exactly with the result of held and driven inputs. -/
theorem CodecUnit.evaluate_eq_next :
    u.evaluate eval = .next t ↔ u.held = true ∧ ∃ v, eval u.operand = some v ∧ t = { u with result := some v } := by
  unfold CodecUnit.evaluate CodecUnit.evaluateOn
  cases u.held <;> cases eval u.operand <;> simp [Advance.outcome, eq_comm]

/-- A LATENCY = 0 unit faults exactly where its inputs are not held or a wire it reads is not driven. -/
theorem CodecUnit.evaluate_eq_fault :
    u.evaluate eval = .fault .inputNotDriven ↔ u.held = false ∨ eval u.operand = none := by
  unfold CodecUnit.evaluate CodecUnit.evaluateOn
  cases u.held <;> cases eval u.operand <;> simp [Advance.outcome]

/-- The result port of a LATENCY = 0 unit: a value exactly while the inputs are held and driven (R82, R85). -/
theorem CodecUnit.output_zero : u.output eval 0 = if u.held then eval u.operand else none := rfl

/-- The result port of a LATENCY = 0 unit has a value exactly where an evaluation gives it (R20). -/
theorem CodecUnit.evaluate_eq_output :
    u.evaluate eval = match u.output eval 0 with
      | some v => .next { u with result := some v }
      | none => .fault .inputNotDriven := by
  rw [CodecUnit.output_zero, CodecUnit.evaluate, CodecUnit.evaluateOn]
  cases u.held <;> cases eval u.operand <;> rfl

@[simp] theorem clearStages_length {n : Nat} {l : List (Stage w)} : (clearStages n l).length = l.length := by
  induction l generalizing n with
  | nil => rfl
  | cons _ _ ih => simp [clearStages, ih]

theorem clearStages_invalid {n : Nat} {l : List (Stage w)} {g : Stage w} (h : g ∈ clearStages n l) : g.v = false := by
  induction l generalizing n with
  | nil => simp [clearStages] at h
  | cons _ _ ih =>
    rcases List.mem_cons.1 h with rfl | h
    · rfl
    · exact ih h

@[simp] theorem loseStages_length {n : Nat} {l : List (Stage w)} : (loseStages n l).length = l.length := by
  induction l generalizing n with
  | nil => rfl
  | cons _ _ ih => simp [loseStages, ih]

@[simp] theorem shiftStages_length {e : Stage w} {l : List (Stage w)} (h : l.length = L) :
    (shiftStages L e l).length = L := by
  simp [shiftStages, h]

/-- The stages of a shift: the new entry in front, the others one further on. -/
theorem shiftStages_getElem? {e : Stage w} {l : List (Stage w)} {k : Nat} (h : k < L) :
    (shiftStages L e l)[k]? = (e :: l)[k]? := by
  simp [shiftStages, h]

/-- What is captured of a valid transaction whose operand is driven. -/
theorem CodecUnit.captured_of_result {v : BitVec w} (hv : u.inValid.read = some 1#1) (he : eval u.operand = some v) :
    u.captured eval = { v := true, r := v, fault := none } := by
  simp [CodecUnit.captured, hv, he]

/-- What is captured of a valid transaction whose operand is not driven: a valid entry with the fault. -/
theorem CodecUnit.captured_of_undriven (hv : u.inValid.read = some 1#1) (he : eval u.operand = none) :
    u.captured eval = { v := true, r := Config.freeWord w u.draws, fault := some .inputNotDriven } := by
  simp [CodecUnit.captured, hv, he]

/-- What is captured when `in_valid` = 0. -/
theorem CodecUnit.captured_of_invalid (hv : u.inValid.read = some 0#1) :
    u.captured eval = { v := false, r := Config.freeWord w u.draws, fault := none } := by
  simp [CodecUnit.captured, hv]

/-- A rising edge with `rst` = 1, whatever else is on the ports. -/
theorem CodecUnit.risingEdgeOn_reset (h : u.rst.read = some 1#1) :
    u.risingEdgeOn eval L =
      { after := { u with stages := clearStages u.draws u.stages, draws := u.draws + u.stages.length }
        fault := none } := by
  simp [CodecUnit.risingEdgeOn, h]

/-- A rising edge with `rst` = 0, whatever else is on the ports. -/
theorem CodecUnit.risingEdgeOn_shift (h : u.rst.read = some 0#1) :
    u.risingEdgeOn eval L =
      { after := { u with stages := shiftStages L (u.captured eval) u.stages, draws := u.draws + 1 }
        fault := (u.captured eval).fault } := by
  simp [CodecUnit.risingEdgeOn, h]

/-- Everything a rising edge can do: lose what is in flight, clear it, or shift. -/
theorem CodecUnit.risingEdgeOn_cases :
    (u.rst.read = none ∧ u.risingEdgeOn eval L =
      { after := { u with stages := loseStages u.draws u.stages, draws := u.draws + u.stages.length }
        fault := some .inputNotDriven }) ∨
    (u.rst.read = some 1#1 ∧ u.risingEdgeOn eval L =
      { after := { u with stages := clearStages u.draws u.stages, draws := u.draws + u.stages.length }
        fault := none }) ∨
    (u.rst.read = some 0#1 ∧ u.risingEdgeOn eval L =
      { after := { u with stages := shiftStages L (u.captured eval) u.stages, draws := u.draws + 1 }
        fault := (u.captured eval).fault }) := by
  have bit : ∀ b : BitVec 1, b = 1#1 ∨ b = 0#1 := by decide
  cases hr : u.rst.read with
  | none => exact .inl ⟨rfl, by simp [CodecUnit.risingEdgeOn, hr]⟩
  | some b =>
    rcases bit b with rfl | rfl
    · exact .inr (.inl ⟨rfl, CodecUnit.risingEdgeOn_reset hr⟩)
    · exact .inr (.inr ⟨rfl, CodecUnit.risingEdgeOn_shift hr⟩)

/-- A rising edge keeps the number of stages, whatever fault it records. -/
theorem CodecUnit.risingEdgeOn_length (hu : u.stages.length = L) : (u.risingEdgeOn eval L).after.stages.length = L := by
  obtain ⟨-, h⟩ | ⟨-, h⟩ | ⟨-, h⟩ := CodecUnit.risingEdgeOn_cases (u := u) (eval := eval) (L := L) <;> simp [h, hu]

/-- Everything a step of a pipelined unit can do: not to know whether there was an edge, a rising edge, or to note the
level of `clk`. -/
theorem CodecUnit.clockedOn_cases :
    (u.clk.read = none ∧ (u.clockedOn eval L).fault = some .inputNotDriven ∧
      (u.clockedOn eval L).after = { u with
        stages := loseStages u.draws u.stages
        clkWas := Config.freeBit (u.draws + u.stages.length)
        draws := u.draws + u.stages.length + 1 }) ∨
    (u.clk.read = some 1#1 ∧ u.clkWas = false ∧
      u.clockedOn eval L = (u.risingEdgeOn eval L).map fun u' => { u' with clkWas := true }) ∨
    (∃ level, u.clk.read = some level ∧ ¬(level = 1#1 ∧ u.clkWas = false) ∧
      u.clockedOn eval L = { after := { u with clkWas := level == 1#1 }, fault := none }) := by
  unfold CodecUnit.clockedOn
  cases hc : u.clk.read with
  | none => exact .inl ⟨rfl, rfl, rfl⟩
  | some level =>
    by_cases hl : level = 1#1 ∧ u.clkWas = false
    · exact .inr (.inl ⟨by rw [hl.1], hl.2, if_pos hl⟩)
    · exact .inr (.inr ⟨level, rfl, hl, if_neg hl⟩)

end units

/-! ### Builds -/

@[simp] theorem resetStages_length (w L : Nat) : (resetStages w L).length = L := by simp [resetStages]
@[simp] theorem powerOnStages_length (w L : Nat) : (powerOnStages w L).length = L := by simp [powerOnStages]

/-- Every stage's valid bit is 0 after reset (R81). -/
theorem resetStages_invalid {w L : Nat} {g : Stage w} (h : g ∈ resetStages w L) : g.v = false := by
  obtain ⟨_, _, rfl⟩ := List.mem_map.1 h
  rfl

section builds
variable {b : Build} {s : State}

theorem stepOnOf_joint (hf : b.form = .joint) :
    stepOnOf b s = (s.joint.stepOn (jointEval b.nanPolicy) b.latency).map fun u => { s with joint := u } := by
  simp [stepOnOf, hf]

theorem stepOnOf_decodeUnit (hf : b.form = .split) (ht : s.turn = .decodeUnit) :
    stepOnOf b s = (s.decodeUnit.stepOn (decodeUnitEval b.nanPolicy) b.latency).map fun u =>
      { s with decodeUnit := u } := by
  simp [stepOnOf, hf, ht]

theorem stepOnOf_encodeUnit (hf : b.form = .split) (ht : s.turn = .encodeUnit) :
    stepOnOf b s = (s.encodeUnit.stepOn (encodeUnitEval b.nanPolicy) b.latency).map fun u =>
      { s with encodeUnit := u } := by
  simp [stepOnOf, hf, ht]

end builds

end Sys2Proof.Machine
end

