-- ==== Sys2Proof/Laws/PerInstr.lean ====
section
/-! SUPPORT. Statements about every instruction as syntax, one lemma per constructor. -/

namespace Sys2Proof.Laws.TableRow

/-- An instruction is well formed, and its assembled word belongs to the row of its own mnemonic and to no other. -/
def Statement (i : Instr) : Prop :=
  i.wellFormed = true ∧ ∀ r ∈ opcodeTable, (r.covers (encode i) = true ↔ r.mnemonic = i.mnemonic)

theorem decode (h : Half) : Statement (.decode h) := by
  have key : (0#1 ++ (0#16 ++ h) : Transaction) &&& 0x100000000#33 = 0#33 := by
    ext i hi
    simp only [BitVec.getElem_and, BitVec.getElem_append]
    rcases (by omega : i < 32 ∨ i = 32) with h1 | h1
    · have : (0x100000000#33)[i] = false := by
        simp only [BitVec.getElem_eq_testBit_toNat, BitVec.toNat_ofNat]
        rw [show (4294967296 % 2 ^ 33 : Nat) = 2 ^ 32 by decide, Nat.testBit_two_pow]
        simp; omega
      simp [this]
    · subst h1; simp
  refine ⟨rfl, ?_⟩
  simp only [opcodeTable, List.mem_cons, List.not_mem_nil, or_false, forall_eq_or_imp, forall_eq, OpcodeRow.covers,
    encode, Instr.mnemonic, key]
  decide

theorem encode (f : Single) : Statement (.encode f) := by
  have key : (1#1 ++ f : Transaction) &&& 0x100000000#33 = 0x100000000#33 := by
    ext i hi
    simp only [BitVec.getElem_and, BitVec.getElem_append]
    rcases (by omega : i < 32 ∨ i = 32) with h1 | h1
    · have : (0x100000000#33)[i] = false := by
        simp only [BitVec.getElem_eq_testBit_toNat, BitVec.toNat_ofNat]
        rw [show (4294967296 % 2 ^ 33 : Nat) = 2 ^ 32 by decide, Nat.testBit_two_pow]
        simp; omega
      simp [this]
    · subst h1; simp
  refine ⟨rfl, ?_⟩
  simp only [opcodeTable, List.mem_cons, List.not_mem_nil, or_false, forall_eq_or_imp, forall_eq, OpcodeRow.covers,
    Sys2Proof.encode, Instr.mnemonic, key]
  decide

end Sys2Proof.Laws.TableRow
end

