-- ==== Sys2Proof/Laws/Values.lean ====
section
/-! SUPPORT. The magnitudes of patterns from the numbers in their fields. -/

namespace Sys2Proof.Machine

/-- A binary32 pattern with a nonzero exponent field (spec/30_encoding.md R33). -/
theorem magnitude32_of_normal {f : Single} {E M : Nat} (hE : (exp32 f).toNat = E) (hM : (frac32 f).toNat = M)
    (h : E ≠ 0) : magnitude32 f = (2 ^ 23 + M : ℚ) * 2 ^ ((E : ℤ) - 150) := by
  have : exp32 f ≠ 0#8 := fun h0 => h (by rw [← hE, h0]; rfl)
  rw [magnitude32, if_neg this, hE, hM]

/-- A binary32 pattern with exponent field 0. -/
theorem magnitude32_of_subnormal {f : Single} {M : Nat} (hE : (exp32 f).toNat = 0) (hM : (frac32 f).toNat = M) :
    magnitude32 f = (M : ℚ) * 2 ^ (-149 : ℤ) := by
  have : exp32 f = 0#8 := BitVec.eq_of_toNat_eq hE
  rw [magnitude32, if_pos this, hM]

/-- A binary16 pattern with a nonzero exponent field (R31). -/
theorem magnitude16_of_normal {h : Half} {e m : Nat} (he : (exp16 h).toNat = e) (hm : (frac16 h).toNat = m)
    (h0 : e ≠ 0) : magnitude16 h = (1024 + m : ℚ) * 2 ^ ((e : ℤ) - 25) := by
  have : exp16 h ≠ 0#5 := fun hz => h0 (by rw [← he, hz]; rfl)
  rw [magnitude16, if_neg this, he, hm]

/-- A binary16 pattern with exponent field 0. -/
theorem magnitude16_of_subnormal {h : Half} {m : Nat} (he : (exp16 h).toNat = 0) (hm : (frac16 h).toNat = m) :
    magnitude16 h = (m : ℚ) * 2 ^ (-24 : ℤ) := by
  have : exp16 h = 0#5 := BitVec.eq_of_toNat_eq he
  rw [magnitude16, if_pos this, hm]

end Sys2Proof.Machine
end

