-- ==== Sys2Proof/Tests/Slice0.lean ====
section
/-! SUPPORT. The model's own tests, expected results from spec/95_test_vectors.md (D1.., E1.., J1.., named where used)
and the rules' worked examples; and, for every statement with hypotheses, values that meet them together. -/

namespace Sys2Proof.Tests

open Sys2Proof.Machine

/-! ### Words and well-formedness -/

/-- 2^33 does not fit the 33 bits of a transaction (R39): the one check of WellFormed.lean refuses it. -/
theorem test_illformed_word_refused : transactionWordOk (2 ^ 33) = false ∧ transactionWordOk (2 ^ 33 - 1) = true := by
  decide

theorem test_illformed_word_is_rejected_by_name : decodeTableWord 40 (2 ^ 33) = none := by decide

/-- `T = {op, a}` with op = 0, a = 0xFFFF3C00 (J2): the high half of a is ignored. -/
theorem test_decode_word : decodeWord (0#1 ++ 0xFFFF#16 ++ 0b0011110000000000#16) = .decode 0x3C00#16 := by decide

/-- `T = {op, a}` with op = 1, a = 0xC77FF000 (J5): all of a is the operand. -/
theorem test_encode_word :
    decodeWord (1#1 ++ 0b11000111011111111111000000000000#32) = .encode 0xC77FF000#32 := by decide

/-- The assembled words of P1 t3 and t4: 0:0000FC00 and 1:FF800000. -/
theorem test_assembled_words :
    encode (.decode 0xFC00#16) = 0x00000FC00#33 ∧ encode (.encode 0xFF800000#32) = 0x1FF800000#33 := by decide

/-! ### Results: one step on a state made of the reset state and a transaction -/

/-- What one step leaves as the result when the host presents T after reset. -/
def resultAfter (T : Transaction) : Option (BitVec 32) :=
  match step (State.reset.present T) with
  | .next t => t.joint.result
  | _ => none

/-- D1 to D31: operand and result of DECODE. -/
def decodeVectors : List (Half × Single) :=
  [(0x0000, 0x00000000), (0x8000, 0x80000000), (0x0001, 0x33800000), (0x8001, 0xB3800000), (0x0002, 0x34000000),
   (0x0003, 0x34400000), (0x0200, 0x38000000), (0x03FF, 0x387FC000), (0x83FF, 0xB87FC000), (0x0400, 0x38800000)] ++
  [(0x0401, 0x38802000), (0x3555, 0x3EAAA000), (0x3BFF, 0x3F7FE000), (0x3C00, 0x3F800000), (0x3C01, 0x3F802000),
   (0xBC00, 0xBF800000), (0x4000, 0x40000000), (0xC000, 0xC0000000), (0x4248, 0x40490000), (0x7800, 0x47000000)] ++
  [(0x7BFF, 0x477FE000), (0xFBFF, 0xC77FE000), (0x7C00, 0x7F800000), (0xFC00, 0xFF800000), (0x7E00, 0x7FC00000),
   (0xFE00, 0xFFC00000), (0x7C01, 0x7FC02000), (0x7DFF, 0x7FFFE000), (0x7FFF, 0x7FFFE000), (0xFFFF, 0xFFFFE000),
   (0xFC01, 0xFFC02000)]

/-- E1 to E45: operand and result of ENCODE. -/
def encodeVectors : List (Single × Half) :=
  [(0x00000000, 0x0000), (0x80000000, 0x8000), (0x00000001, 0x0000), (0x807FFFFF, 0x8000), (0x00800000, 0x0000),
   (0x33000000, 0x0000), (0x33000001, 0x0001), (0xB3000001, 0x8001), (0x337FFFF3, 0x0001), (0x33800000, 0x0001)] ++
  [(0x33C00000, 0x0002), (0x34200000, 0x0002), (0x34400000, 0x0003), (0x387FC000, 0x03FF), (0x387FDFFF, 0x03FF),
   (0x387FE000, 0x0400), (0x38800000, 0x0400), (0x3F800000, 0x3C00), (0x3F801001, 0x3C01), (0x3F801000, 0x3C00)] ++
  [(0x3F802000, 0x3C01), (0x3F803000, 0x3C02), (0x3F7FF000, 0x3C00), (0x3F7FEFFF, 0x3BFF), (0xBF800000, 0xBC00),
   (0x40490FDB, 0x4248), (0x3EAAAAAB, 0x3555), (0x477FD000, 0x7BFE), (0x477FE000, 0x7BFF), (0x477FE100, 0x7BFF)] ++
  [(0x477FEFFF, 0x7BFF), (0x477FF000, 0x7C00), (0xC77FF000, 0xFC00), (0x47800000, 0x7C00), (0x7F7FFFFF, 0x7C00),
   (0xFF7FFFFF, 0xFC00), (0x7F800000, 0x7C00), (0xFF800000, 0xFC00), (0x7FC00000, 0x7E00), (0xFFC00000, 0xFE00)] ++
  [(0x7F800001, 0x7E00), (0x7F802000, 0x7E01), (0x7FA00000, 0x7F00), (0x7FFFFFFF, 0x7FFF), (0x32FFFAE5, 0x0000)]

/-- Every DECODE vector of §2.1, with the ignored half of `a` all ones. -/
theorem test_decode_vectors :
    (decodeVectors.all fun v => resultAfter (0#1 ++ 0xFFFF#16 ++ v.1) == some v.2) = true := by decide

/-- Every ENCODE vector of §2.2. -/
theorem test_encode_vectors :
    (encodeVectors.all fun v => resultAfter (1#1 ++ v.1) == some (0#16 ++ v.2)) = true := by decide

/-- Column DEFAULT_NAN of P3 t1 and t3. -/
theorem test_default_nan :
    fp16ToFp32 .defaultNan 0x7C01#16 = 0x7FC00000#32 ∧ fp32ToFp16 .defaultNan 0xFFC00000#32 = 0x7E00#16 := by decide

/-! ### Undriven and unsettled inputs (R72, R82, R85) -/

/-- The host presents DECODE of 0x3C00 with nothing on `a[31:16]`. -/
def decodeWithFloatingHigh : State :=
  { State.reset with joint := { State.reset.joint with
      operand := { op := Port.drive 0#1, a := { ones := 0x00003C00#32, zeros := 0x0000C3FF#32 } }
      held := true } }

theorem test_ignored_wires_may_float :
    step decodeWithFloatingHigh = .next (decodeWithFloatingHigh.withResult 0x3F800000#32) := rfl

/-- The same wires with `op` = 1: ENCODE reads all of `a`. -/
def encodeWithFloatingHigh : State :=
  { decodeWithFloatingHigh with joint := { decodeWithFloatingHigh.joint with
      operand := { decodeWithFloatingHigh.joint.operand with op := Port.drive 1#1 } } }

theorem test_encode_reads_all_wires : step encodeWithFloatingHigh = .fault .inputNotDriven := rfl

theorem test_unsettled_inputs_fault :
    step { decodeWithFloatingHigh with joint := { decodeWithFloatingHigh.joint with held := false } } =
      .fault .inputNotDriven := rfl

/-- R85: the port has no value on an unsettled sample, and has one as soon as the inputs are held. -/
theorem test_port_has_no_value_unsettled :
    CodecUnit.output (jointEval .propagateQuiet) 0 { decodeWithFloatingHigh.joint with held := false } = none ∧
    decodeWithFloatingHigh.joint.output (jointEval .propagateQuiet) 0 = some 0x3F800000#32 := by decide

/-! ### Other builds -/

/-- A JOINT build with two stages, as P4's. -/
def pipelined : Build := { nanPolicy := .propagateQuiet, form := .joint, latency := 2 }

/-- A SPLIT build with no stage. -/
def split : Build := { nanPolicy := .propagateQuiet, form := .split, latency := 0 }

/-- A two-stage JOINT unit holding the given stages, with what the host drives in one cycle and a rising `clk`. -/
def unitOf (rst inValid : BitVec 1) (T : Transaction) (stages : List (Stage 32)) : CodecUnit JointPorts 32 :=
  { operand := JointPorts.drive T, held := true, clk := Port.drive 1#1, clkWas := false, rst := Port.drive rst,
    inValid := Port.drive inValid, stages := stages, result := none, draws := 0 }

/-- P4 cycle 2: t1 is in `stage[0]`, t2 (ENCODE 0x3F801000) is presented; after the edge t1 is on `y` (R21). -/
theorem test_edge_shifts :
    (match (unitOf 0#1 1#1 0x13F801000#33 [⟨true, 0x3F800000#32, none⟩, ⟨false, 0#32, none⟩]).clocked
        (jointEval .propagateQuiet) 2 with
      | .next t => t.stages == [⟨true, 0x00003C00#32, none⟩, ⟨true, 0x3F800000#32, none⟩] && t.outValid
      | _ => false) = true := by decide

/-- P4 cycle 0: `rst` = 1 clears the valid bits and discards what is presented (R81). -/
theorem test_reset_edge_clears :
    (match (unitOf 1#1 1#1 0x13F801000#33 [⟨true, 0x3F800000#32, none⟩, ⟨true, 0#32, none⟩]).clocked
        (jointEval .propagateQuiet) 2 with
      | .next t => t.stages.all (fun g => !g.v) && !t.outValid
      | _ => false) = true := by decide

/-- P4's t1 in `stage[0]`, and an ENCODE whose high wires float is presented at the edge. -/
def edgeWithUndrivenOperand : Advance (CodecUnit JointPorts 32) :=
  CodecUnit.clockedOn (jointEval .propagateQuiet) 2
    { unitOf 0#1 1#1 0#33 [⟨true, 0x3F800000#32, none⟩, ⟨false, 0#32, none⟩] with
      operand := encodeWithFloatingHigh.joint.operand }

/-- t1 still comes to `y` at this edge (R78, R86), the new transaction has no value and its fault is recorded (R72), and
the clock level is noted. -/
theorem test_undriven_operand_leaves_others_in_flight :
    edgeWithUndrivenOperand.fault = some .inputNotDriven ∧ edgeWithUndrivenOperand.after.clkWas = true ∧
    edgeWithUndrivenOperand.after.sampled 2 = some 0x3F800000#32 ∧
    edgeWithUndrivenOperand.after.stages.map (fun g => (g.v, g.value)) =
      [(true, none), (true, some 0x3F800000#32)] := by decide

/-- The SPLIT units: 0x3C00 on `h_in` gives 0x3F800000 on `f_out` (S3), by the unit the host drives. -/
def splitState : State :=
  { State.reset with
    decodeUnit := { State.reset.decodeUnit with operand := Port.drive 0x3C00#16, held := true }
    encodeUnit := { State.reset.encodeUnit with operand := Port.drive 0x3F801000#32, held := true } }

theorem test_split_decode_unit :
    (match stepOf split splitState with
      | .next t => t.decodeUnit.result == some 0x3F800000#32
      | _ => false) = true := by decide

/-! ### Programs (R40): ill-formed lines are refused -/

/-- P1's first two lines and P2's projection of a result. -/
theorem test_program_lines_ok :
    programOk [] [.decodeOf (.half 0x0001#16), .encodeOf (.result 0), .decodeOf (.result 1), .decodeOf (.lo16 0),
      .encodeOf (.zext32 1)] = true := by decide

theorem test_wrong_literal_width_refused :
    programOk [] [.decodeOf (.single 0#32)] = false ∧ programOk [] [.encodeOf (.half 0#16)] = false := by decide

theorem test_forward_reference_refused : programOk [] [.encodeOf (.result 0)] = false := by decide

theorem test_wrong_result_width_refused :
    programOk [] [.decodeOf (.half 0#16), .decodeOf (.result 0)] = false ∧
    programOk [] [.decodeOf (.half 0#16), .encodeOf (.zext32 0)] = false ∧
    programOk [] [.encodeOf (.single 0#32), .decodeOf (.lo16 0)] = false := by decide

theorem test_mnemonics :
    opOfMnemonic "DECODE" = some 0#1 ∧ opOfMnemonic "H2S" = some 0#1 ∧ opOfMnemonic "fp32_to_fp16" = some 1#1 ∧
    lineOfMnemonic "S2H" (.result 0) = some (.encodeOf (.result 0)) ∧ opOfMnemonic "NOP" = none := by decide

/-! ### The hypotheses of the statements can be met -/

/-- StepRunsTheDecodedTransaction: both operations on driven ports, and a DECODE whose ignored wires float. -/
theorem witness_presented :
    (State.reset.present 0x13F800000#33).joint.presented = some 0x13F800000#33 ∧
    decodeWithFloatingHigh.joint.presented = some 0x000003C00#33 ∧
    decodeTableWord 33 0x13F800000 = some (.encode 0x3F800000#32) ∧
    decodeTableWord 33 0x000003C00 = some (.decode 0x3C00#16) := by decide

/-- IgnoredWiresHaveNoEffect. -/
theorem witness_ignored_wires :
    (JointPorts.drive 0x0FFFF3C00#33).op = decodeWithFloatingHigh.joint.operand.op ∧
    (JointPorts.drive 0x0FFFF3C00#33).op.read = some 0#1 ∧
    (JointPorts.drive 0x0FFFF3C00#33).a.low16 = decodeWithFloatingHigh.joint.operand.a.low16 := by decide

/-- ATransactionChangesOnlyItsResult, EvaluatingTwiceIsEvaluatingOnce, TheResultIsTheOutputPort: both operations, and for
the last a step that faults. -/
theorem witness_step_answers_next :
    (∃ t, step (State.reset.present 0x000003C00#33) = .next t) ∧
    (∃ t, step (State.reset.present 0x13F800000#33) = .next t) ∧
    (∃ t, exec (.decode 0x3C00#16) State.reset = .next t) ∧ (∃ t, exec (.encode 0x3F800000#32) State.reset = .next t) ∧
    step encodeWithFloatingHigh = .fault .inputNotDriven :=
  ⟨⟨_, rfl⟩, ⟨_, rfl⟩, ⟨_, rfl⟩, ⟨_, rfl⟩, rfl⟩

/-- StepKeepsTheInvariant: a state with the invariant from which a step goes on. -/
theorem witness_invariant : ∃ t, (State.reset.present 0x000003C00#33).Inv ∧
    step (State.reset.present 0x000003C00#33) = .next t :=
  ⟨_, ⟨rfl, fun _ h => by cases h⟩, rfl⟩

/-- JointPorts.Undriven at its ends: wire 15 under DECODE counts and wire 16 does not, wire 31 under ENCODE counts, and so
does `op`. -/
theorem witness_undriven_joint_wires :
    JointPorts.Undriven { op := Port.drive 0#1, a := { ones := 0#32, zeros := 0xFFFF7FFF#32 } } ∧
    ¬JointPorts.Undriven { op := Port.drive 0#1, a := { ones := 0#32, zeros := 0xFFFEFFFF#32 } } ∧
    JointPorts.Undriven { op := Port.drive 1#1, a := { ones := 0#32, zeros := 0x7FFFFFFF#32 } } ∧
    ¬JointPorts.Undriven { op := Port.drive 1#1, a := Port.drive 0#32 } ∧
    JointPorts.Undriven { op := Port.floating, a := Port.drive 0#32 } := by
  unfold JointPorts.Undriven Port.Undriven
  decide

/-- StepFaultsExactlyWhenAReadWireIsNotDriven, AnEdgeReadsTheOperandOnlyWhenValid: the last wire of a SPLIT unit's port
floats or is contended, and a SPLIT step with it faults. -/
theorem witness_undriven_split_wires :
    Port.Undriven { ones := 0#16, zeros := 0x7FFF#16 } 16 ∧
    decodeUnitEval .propagateQuiet { ones := 0#16, zeros := 0x7FFF#16 } = none ∧
    Port.Undriven { ones := 0x80000000#32, zeros := 0xFFFFFFFF#32 } 32 ∧
    encodeUnitEval .propagateQuiet { ones := 0x80000000#32, zeros := 0xFFFFFFFF#32 } = none ∧
    stepOf split { splitState with decodeUnit := { splitState.decodeUnit with
      operand := { ones := 0#16, zeros := 0x7FFF#16 } } } = .fault .inputNotDriven :=
  ⟨⟨15, by decide, by decide⟩, rfl, ⟨31, by decide, by decide⟩, rfl, rfl⟩

/-- EveryBuildKeepsItsStages: a build with stages and one without, each with a step that goes on. -/
theorem witness_stages :
    (∃ t, (State.resetOf pipelined).wf pipelined = true ∧
      stepOf pipelined { State.resetOf pipelined with joint := { (State.resetOf pipelined).joint with
        clk := Port.drive 0#1 } } = .next t) ∧
    (∃ t, splitState.wf split = true ∧ stepOf split splitState = .next t) :=
  ⟨⟨_, rfl, rfl⟩, ⟨_, rfl, rfl⟩⟩

/-- DecodeOfASignedZero, DecodeOfASubnormal, DecodeOfANormal, DecodeOfAnInfinity, at the ends of each class. -/
theorem witness_decode_classes :
    (0x0000#16).extractLsb' 0 15 = 0#15 ∧ (0x8000#16).extractLsb' 0 15 = 0#15 ∧
    (exp16 0x0001#16 = 0#5 ∧ frac16 0x0001#16 ≠ 0#10) ∧ (exp16 0x83FF#16 = 0#5 ∧ frac16 0x83FF#16 ≠ 0#10) ∧
    (1 ≤ (exp16 0x0400#16).toNat ∧ (exp16 0x0400#16).toNat ≤ 30) ∧
    (1 ≤ (exp16 0x7BFF#16).toNat ∧ (exp16 0x7BFF#16).toNat ≤ 30) ∧
    (exp16 0xFC00#16 = 31#5 ∧ frac16 0xFC00#16 = 0#10) := by decide

/-- DecodeOfANaNIsANaN, DecodeOfANaNFollowsThePolicy, DecodeKeepsTheSign, EncodeUndoesDecode: signaling and quiet. -/
theorem witness_half_nans :
    isNaN16 0x7C01#16 = true ∧ isNaN16 0xFFFF#16 = true ∧ class16 0x7E00#16 = .quietNan ∧ isNaN16 0x7E00#16 = true ∧
    isNaN16 0x7C00#16 = false := by decide

/-- DecodeIsLossless: a single that is representable, and the half that gives it. -/
theorem witness_lossless :
    isNaN16 0x7BFF#16 = false ∧ isNaN32 0x477FE000#32 = false ∧
    fp16ToFp32 .propagateQuiet 0x7BFF#16 = 0x477FE000#32 := by decide

/-- DecodeNeverLeavesTheNormalRange: the smallest subnormal and the largest normal. -/
theorem witness_finite_nonzero :
    (isFinite16 0x0001#16 = true ∧ (0x0001#16).extractLsb' 0 15 ≠ 0#15) ∧
    (isFinite16 0x7BFF#16 = true ∧ (0x7BFF#16).extractLsb' 0 15 ≠ 0#15) := by decide

/-- EncodeOfAnInfinity, EncodeOfAZeroOrSubnormal, EncodeInTheNormalRange, EncodeInTheSubnormalRange, at the ends of each
range. -/
theorem witness_encode_ranges :
    (exp32 0xFF800000#32 = 255#8 ∧ frac32 0xFF800000#32 = 0#23) ∧ exp32 0x807FFFFF#32 = 0#8 ∧
    (113 ≤ (exp32 0x38800000#32).toNat ∧ (exp32 0x38800000#32).toNat ≤ 142) ∧
    (113 ≤ (exp32 0x477FFFFF#32).toNat ∧ (exp32 0x477FFFFF#32).toNat ≤ 142) ∧
    (1 ≤ (exp32 0x00800000#32).toNat ∧ (exp32 0x00800000#32).toNat ≤ 112) ∧
    (1 ≤ (exp32 0x387FFFFF#32).toNat ∧ (exp32 0x387FFFFF#32).toNat ≤ 112) := by decide

/-- EncodeOfANaNIsANaN, EncodeOfANaNFollowsThePolicy, EncodeKeepsTheSign, EncodeArithmeticStaysInBounds,
InexactAndOverflowAreReadOffTheResult, EncodeRoundsToNearestEven, with both branches of ENCODE. -/
theorem witness_singles :
    isNaN32 0x7F800001#32 = true ∧ isNaN32 0xFFC00000#32 = true ∧ isNaN32 0x7F7FFFFF#32 = false ∧
    (isFinite32 0x38800000#32 = true ∧ -14 ≤ unbiasedExponent 0x38800000#32) ∧
    (isFinite32 0x387FFFFF#32 = true ∧ unbiasedExponent 0x387FFFFF#32 < -14) := by decide

/-- EncodeOverflowsFrom65520, NoFiniteHalfIsNearer: 65488, a value in (65488, 65520) and 65520. -/
theorem witness_overflow :
    (isFinite32 0x477FD000#32 = true ∧ magnitude32 0x477FD000#32 = 65488) ∧
    (isFinite32 0x477FE000#32 = true ∧ 65488 < magnitude32 0x477FE000#32 ∧ magnitude32 0x477FE000#32 < 65520) ∧
    (isFinite32 0x477FF000#32 = true ∧ magnitude32 0x477FF000#32 = 65520) := by
  have a : magnitude32 0x477FD000#32 = 65488 := by
    rw [magnitude32_of_normal (E := 142) (M := 0x7FD000) (by decide) (by decide) (by decide)]; norm_num
  have b : magnitude32 0x477FE000#32 = 65504 := by
    rw [magnitude32_of_normal (E := 142) (M := 0x7FE000) (by decide) (by decide) (by decide)]; norm_num
  have c : magnitude32 0x477FF000#32 = 65520 := by
    rw [magnitude32_of_normal (E := 142) (M := 0x7FF000) (by decide) (by decide) (by decide)]; norm_num
  rw [a, b, c]
  refine ⟨⟨by decide, rfl⟩, ⟨by decide, ?_, ?_⟩, ⟨by decide, rfl⟩⟩ <;> norm_num

/-- EncodeUnderflowsUpToTwoToTheMinus25: 2^-25 itself and 2^-24, which lies in (2^-25, 3 * 2^-25). -/
theorem witness_underflow :
    (isFinite32 0x33000000#32 = true ∧ magnitude32 0x33000000#32 ≤ 2 ^ (-25 : ℤ)) ∧
    (isFinite32 0x33800000#32 = true ∧ 2 ^ (-25 : ℤ) < magnitude32 0x33800000#32 ∧
      magnitude32 0x33800000#32 < 3 * 2 ^ (-25 : ℤ)) := by
  have a : magnitude32 0x33000000#32 = 2 ^ (-25 : ℤ) := by
    rw [magnitude32_of_normal (E := 102) (M := 0) (by decide) (by decide) (by decide)]; norm_num
  have b : magnitude32 0x33800000#32 = 2 ^ (-24 : ℤ) := by
    rw [magnitude32_of_normal (E := 103) (M := 0) (by decide) (by decide) (by decide)]; norm_num
  rw [a, b]
  refine ⟨⟨by decide, le_refl _⟩, ⟨by decide, ?_, ?_⟩⟩ <;> norm_num

/-- TheRoundingRuleGivesOnePattern: 65520 rounds to the infinity and to nothing else. -/
theorem witness_rounding_rule : (0 : ℚ) ≤ 65520 ∧ IsRne16 false 65520 0x7C00#16 := by
  refine ⟨by norm_num, ?_⟩
  unfold IsRne16
  rw [if_pos (le_refl _)]
  decide

/-- EncodeIsMonotone: -infinity is at most +infinity, and 1.0 at most 1.0. -/
theorem witness_monotone :
    (isNaN32 0xFF800000#32 = false ∧ isNaN32 0x7F800000#32 = false ∧
      (value32 0xFF800000#32).le (value32 0x7F800000#32)) ∧
    (isNaN32 0x3F800000#32 = false ∧ (value32 0x3F800000#32).le (value32 0x3F800000#32)) := by
  refine ⟨⟨by decide, by decide, ?_⟩, by decide, ?_⟩
  · exact Or.inl rfl
  · exact le_refl (magnitude32 0x3F800000#32)

/-- EveryFormComputesCodec, AUnitStepLeavesTheOtherUnitsAlone: a SPLIT state for each unit. -/
theorem witness_split :
    split.latency = 0 ∧ split.form = .split ∧ splitState.turn = .decodeUnit ∧ splitState.decodeUnit.held = true ∧
    splitState.decodeUnit.operand = Port.drive 0x3C00#16 ∧ splitState.encodeUnit.held = true ∧
    splitState.encodeUnit.operand = Port.drive 0x3F801000#32 ∧ Build.hardware.latency = 0 ∧
    Build.hardware.form = .joint ∧ (∃ t, stepOf split splitState = .next t) ∧
    (∃ t, stepOf split { splitState with turn := .encodeUnit } = .next t) :=
  ⟨rfl, rfl, rfl, rfl, rfl, rfl, rfl, rfl, rfl, ⟨_, rfl⟩, ⟨_, rfl⟩⟩

/-- EveryStageAdvancesAtEveryEdge, ResetDiscardsWhatIsInFlight: an edge of each kind at a two-stage unit. -/
theorem witness_edges :
    (∃ t, (unitOf 1#1 1#1 0x13F801000#33 [⟨true, 0#32, none⟩, ⟨true, 0#32, none⟩]).risingEdge (jointEval .propagateQuiet) 2 =
      .next t) ∧
    (∃ t, (unitOf 0#1 1#1 0x13F801000#33 [⟨true, 0#32, none⟩, ⟨true, 0#32, none⟩]).risingEdge (jointEval .propagateQuiet) 2 =
      .next t) ∧
    (∃ t, (unitOf 0#1 0#1 0x13F801000#33 [⟨true, 0#32, none⟩, ⟨true, 0#32, none⟩]).risingEdge (jointEval .propagateQuiet) 2 =
      .next t) ∧
    (unitOf 1#1 1#1 0x13F801000#33 [⟨true, 0#32, none⟩, ⟨true, 0#32, none⟩]).rst.read = some 1#1 ∧
    (unitOf 0#1 0#1 0x13F801000#33 [⟨true, 0#32, none⟩, ⟨true, 0#32, none⟩]).inValid.read = some 0#1 :=
  ⟨⟨_, rfl⟩, ⟨_, rfl⟩, ⟨_, rfl⟩, rfl, rfl⟩

/-- One cycle's inputs of a JOINT unit. -/
def cycleOf (rst inValid : BitVec 1) (T : Transaction) : CycleInputs JointPorts :=
  { operand := JointPorts.drive T, rst := Port.drive rst, inValid := Port.drive inValid }

/-- AResultAppearsAfterLatencyEdges: the hypotheses of ResultAppearsAfter at L = 2, the later cycle valid or not. -/
theorem witness_result_appears :
    (cycleOf 0#1 1#1 0x13F801000#33).rst.read = some 0#1 ∧ (cycleOf 0#1 1#1 0x13F801000#33).inValid.read = some 1#1 ∧
    jointEval .propagateQuiet (cycleOf 0#1 1#1 0x13F801000#33).operand = some 0x00003C00#32 ∧
    (cycleOf 0#1 0#1 0#33).Ready (jointEval .propagateQuiet) ∧
    (cycleOf 0#1 1#1 0x000003C00#33).Ready (jointEval .propagateQuiet) := by
  refine ⟨by decide, by decide, by decide, ⟨by decide, Or.inl (by decide)⟩, ⟨by decide, Or.inr ⟨by decide, ?_⟩⟩⟩
  decide

/-- StateChangesOnlyAtARisingEdge: `clk` low, and `clk` high that was high before. -/
theorem witness_no_edge :
    (∃ t, stepOf pipelined { State.resetOf pipelined with joint := { (State.resetOf pipelined).joint with
      clk := Port.drive 0#1 } } = .next t) ∧
    (∃ t, stepOf pipelined { State.resetOf pipelined with joint := { (State.resetOf pipelined).joint with
      clk := Port.drive 1#1 } } = .next t) ∧
    (State.resetOf pipelined).joint.clkWas = true ∧ 0 < pipelined.latency :=
  ⟨⟨_, rfl⟩, ⟨_, rfl⟩, rfl, by decide⟩

/-- StateChangesOnlyAtARisingEdge: a step of a pipelined build at which `clk` rises. By R21 the transaction presented goes
into `stage[0]` and the one in `stage[0]` onto `y`. -/
theorem witness_rising_edge :
    (unitOf 0#1 1#1 0x13F801000#33 [⟨true, 0x3F800000#32, none⟩, ⟨false, 0#32, none⟩]).clk.read = some 1#1 ∧
    (match stepOf pipelined { State.resetOf pipelined with
        joint := unitOf 0#1 1#1 0x13F801000#33 [⟨true, 0x3F800000#32, none⟩, ⟨false, 0#32, none⟩] } with
      | .next t => t.joint.stages == [⟨true, 0x00003C00#32, none⟩, ⟨true, 0x3F800000#32, none⟩] && t.joint.clkWas
      | _ => false) = true := by decide

/-- A JOINT instance with nothing driven, beside a SPLIT one that the host drives. -/
def mixedSystem : List Instance :=
  [{ build := Build.hardware, state := State.reset, fault := none },
   { build := split, state := splitState, fault := none }]

/-- R72, R78: the JOINT instance's fault is recorded there, and the SPLIT one's transaction gives its result (S3). -/
theorem test_a_fault_is_one_instances_own :
    (runSchedule [0, 1] mixedSystem).map (fun x => (x.fault, x.sampled)) =
      [(some .inputNotDriven, none), (none, some 0x3F800000#32)] := by decide

/-- InstancesNeedNoSynchronisation, AnyInterleavingGivesEachItsCodec: both operations at both instances. -/
theorem witness_interleaving :
    (0 : Nat) ≠ 1 ∧ (∀ x ∈ mixedSystem, x.build.latency = 0) ∧
    (∀ e ∈ [ScheduledTransaction.mk 0 0x000003C00#33, ⟨1, 0x13F800000#33⟩, ⟨1, 0x000003C00#33⟩],
      e.index < mixedSystem.length) := by decide

/-- AWellFormedProgramRunsToItsEnd: P1's first round trip, a program of two lines. -/
theorem witness_program :
    programOk [] [.decodeOf (.half 0x0001#16), .encodeOf (.result 0)] = true ∧ Build.hardware.form = .joint ∧
    Build.hardware.latency = 0 := by decide

end Sys2Proof.Tests
end

section
/-! SUPPORT. The step of this hardware on a transaction that the host presents, said once, and what follows from it
about hidden state (spec/10_state.md R18, R20). -/

namespace Sys2Proof.Machine

/-! ### The decoder on a word given as `{op, a}` -/

/-- R36: a word with `op` = 0 is a DECODE of its low half, whatever stands in `a[31:16]`. -/
theorem decodeWord_op_zero (high : BitVec 16) (h : Half) : decodeWord (0#1 ++ (high ++ h)) = .decode h := by
  have hop : opOf (0#1 ++ (high ++ h)) = 0#1 := BitVec.extractLsb'_append_eq_left
  have ha : operandOf (0#1 ++ (high ++ h)) = high ++ h := BitVec.extractLsb'_append_eq_right
  rw [decodeWord, if_pos hop, ha, BitVec.extractLsb'_append_eq_right]

/-- R35: a word with `op` = 1 is an ENCODE of its operand. -/
theorem decodeWord_op_one (f : Single) : decodeWord (1#1 ++ f) = .encode f := by
  have hop : opOf (1#1 ++ f) = 1#1 := BitVec.extractLsb'_append_eq_left
  have ha : operandOf (1#1 ++ f) = f := BitVec.extractLsb'_append_eq_right
  rw [decodeWord, if_neg (by rw [hop]; decide), ha]

/-- The word read from ports that are driven to T decodes to T's own instruction: what DECODE does not read (R36), the
decoder ignores. -/
theorem presented_present_decodes (s : State) (T : Transaction) :
    ∃ U, (s.present T).joint.presented = some U ∧ decodeWord U = decodeWord T := by
  refine ⟨_, JointPorts.word_drive T, ?_⟩
  rw [apply_ite decodeWord, decodeWord_op_zero, decodeWord_op_one]
  rfl

/-! ### A step -/

/-- R20: the decoded transaction leaves `CODEC` of its word as the result, and nothing else changes. -/
theorem exec_decodeWord (T : Transaction) (s : State) :
    exec (decodeWord T) s = .next (s.withResult (codec Build.hardware.nanPolicy (opOf T) (operandOf T))) := by
  by_cases hop : opOf T = 0#1
  · rw [decodeWord, codec, if_pos hop, if_pos hop, exec, execDecode]
  · rw [decodeWord, codec, if_neg hop, if_neg hop, exec, execEncode]

/-- A step runs the instruction that the transaction on the ports decodes to. -/
theorem step_of_presented {s : State} {T : Transaction} (h : s.joint.presented = some T) :
    step s = exec (decodeWord T) s := by
  rw [step, h]

/-- A step on a presented transaction runs the instruction of that transaction's word. -/
theorem step_present_eq_exec (s : State) (T : Transaction) : step (s.present T) = exec (decodeWord T) (s.present T) := by
  obtain ⟨U, hU, hdec⟩ := presented_present_decodes s T
  rw [step_of_presented hU, hdec]

/-- R20: a step on a presented transaction gives `CODEC` of its word, in which no field of `s` occurs. -/
theorem step_present (s : State) (T : Transaction) :
    step (s.present T) =
      .next ((s.present T).withResult (codec Build.hardware.nanPolicy (opOf T) (operandOf T))) := by
  rw [step_present_eq_exec, exec_decodeWord]

/-- Settles O13: the one result is `CODEC` of the transaction's word (R20). -/
theorem theResultDependsOnTheTransactionAlone : Obligations.TheResultDependsOnTheTransactionAlone := by
  intro T
  exact ⟨codec Build.hardware.nanPolicy (opOf T) (operandOf T), fun s =>
    ⟨_, step_present s T, State.withResult_result _ _⟩⟩

end Sys2Proof.Machine
end

section
/-! SUPPORT. Which row of the opcode table covers a transaction word: the mask of every row is the `op` bit, so the row
is the one of the decoded instruction (spec/30_encoding.md R38). -/

namespace Sys2Proof.Laws.TableRow

/-- What holds of every instruction, from the lemma of its constructor. -/
theorem statement_of_instr (i : Instr) : Statement i := by
  cases i with
  | decode h => exact decode h
  | encode f => exact encode f

/-- R35: assembling keeps the operation that the decoder read. -/
theorem opOf_encode_decodeWord (T : Transaction) : opOf (Sys2Proof.encode (decodeWord T)) = opOf T := by
  rcases BitVec.eq_zero_or_eq_one (opOf T) with hop | hop
  · rw [decodeWord, if_pos hop, hop]
    exact BitVec.extractLsb'_append_eq_left
  · rw [decodeWord, if_neg (by rw [hop]; decide), hop]
    exact BitVec.extractLsb'_append_eq_left

/-- The mask of the table's rows keeps `T[32]` and clears `T[31:0]` (R35). -/
theorem and_opMask (T : Transaction) : T &&& 0x100000000#33 = opOf T ++ 0#32 := by
  have hT : opOf T ++ operandOf T = T := BitVec.extractLsb'_append_extractLsb'
  calc T &&& 0x100000000#33
      = (opOf T ++ operandOf T) &&& (BitVec.allOnes 1 ++ 0#32) := by rw [hT]; rfl
    _ = opOf T ++ 0#32 := by rw [BitVec.and_append, BitVec.and_allOnes, BitVec.and_zero]

/-- Every row of the table looks at the `op` bit and at no other. -/
theorem mask_eq_opMask : ∀ r ∈ opcodeTable, r.mask = 0x100000000#33 := by decide

/-- Two words of the same operation belong to the same rows. -/
theorem covers_eq_of_opOf_eq {r : OpcodeRow} (hr : r ∈ opcodeTable) {T U : Transaction} (h : opOf T = opOf U) :
    r.covers T = r.covers U := by
  rw [OpcodeRow.covers, OpcodeRow.covers, mask_eq_opMask r hr, and_opMask, and_opMask, h]

/-- R38: a word belongs to the row with the mnemonic of the instruction it decodes to, and to no other. -/
theorem covers_iff_mnemonic_eq {r : OpcodeRow} (hr : r ∈ opcodeTable) (T : Transaction) :
    r.covers T = true ↔ r.mnemonic = (decodeWord T).mnemonic := by
  rw [← covers_eq_of_opOf_eq hr (opOf_encode_decodeWord T)]
  exact (statement_of_instr (decodeWord T)).2 r hr

/-- Every instruction has its row in the table. -/
theorem exists_row (i : Instr) : ∃ r ∈ opcodeTable, r.mnemonic = i.mnemonic := by
  cases i with
  | decode h => exact ⟨_, .head _, rfl⟩
  | encode f => exact ⟨_, .tail _ (.head _), rfl⟩

/-- The mnemonic names its row: no two rows share one. -/
theorem row_eq_of_mnemonic_eq :
    ∀ r ∈ opcodeTable, ∀ r' ∈ opcodeTable, r'.mnemonic = r.mnemonic → r' = r := by decide

/-- Settles O3: the one row of a word is that of the decoded instruction, as each row's mask is the `op` bit. -/
theorem everyWordSelectsExactlyOneOperation : Obligations.EveryWordSelectsExactlyOneOperation := by
  refine ⟨fun T => ⟨(statement_of_instr (decodeWord T)).1, ?_⟩, Machine.decodeWord_op_zero⟩
  obtain ⟨r, hr, hname⟩ := exists_row (decodeWord T)
  refine ⟨r, hr, (covers_iff_mnemonic_eq hr T).mpr hname, hname, fun r' hr' hcov => ?_⟩
  exact row_eq_of_mnemonic_eq r hr r' hr' (((covers_iff_mnemonic_eq hr' T).mp hcov).trans hname.symm)

end Sys2Proof.Laws.TableRow
end

section
/-! SUPPORT. DECODE (spec/40_decode_fp16_to_fp32.md).

Class by class: one equation of `fp16ToFp32` for each branch of its definition, with its hypotheses on
the fields as words, and what the result's fields and pattern are (R42 to R48, R52). Then the values of its results (R49), and from both the
statements. -/

namespace Sys2Proof.Machine

/-! ### The classes of a half -/

/-- R10: a half that is no NaN has another exponent field than 31, or fraction 0. -/
theorem isNaN16_eq_false_iff (h : Half) : isNaN16 h = false ↔ (exp16 h = 31#5 → frac16 h = 0#10) := by
  simp [isNaN16]

/-- R31: the four classes of a half that is no NaN. -/
theorem half_classes {h : Half} (hn : isNaN16 h = false) :
    (exp16 h = 0#5 ∧ frac16 h = 0#10) ∨ (exp16 h = 0#5 ∧ frac16 h ≠ 0#10) ∨ (exp16 h ≠ 0#5 ∧ exp16 h ≠ 31#5) ∨
      (exp16 h = 31#5 ∧ frac16 h = 0#10) := by
  have hinf := (isNaN16_eq_false_iff h).mp hn
  tauto

/-! ### The branches of DECODE -/

section branches
variable (policy : NanPolicy) {h : Half}

theorem fp16ToFp32_of_zero (he : exp16 h = 0#5) (hm : frac16 h = 0#10) :
    fp16ToFp32 policy h = pack32 (sign16 h) 0#8 0#23 := by
  simp [fp16ToFp32, he, hm]

theorem fp16ToFp32_of_subnormal (he : exp16 h = 0#5) (hm : frac16 h ≠ 0#10) :
    fp16ToFp32 policy h = pack32 (sign16 h) (BitVec.ofNat 8 (msbIndex (frac16 h).toNat + 103))
      (BitVec.ofNat 23 (((frac16 h).toNat - 2 ^ msbIndex (frac16 h).toNat) *
        2 ^ (23 - msbIndex (frac16 h).toNat))) := by
  have hm0 : (frac16 h).toNat ≠ 0 := fun h0 => hm (BitVec.eq_of_toNat_eq h0)
  simp [fp16ToFp32, he, hm0, Nat.shiftLeft_eq]

theorem fp16ToFp32_of_infinity (he : exp16 h = 31#5) (hm : frac16 h = 0#10) :
    fp16ToFp32 policy h = pack32 (sign16 h) 0xFF#8 0#23 := by
  simp [fp16ToFp32, he, hm]

theorem fp16ToFp32_of_nan (hn : isNaN16 h = true) : fp16ToFp32 policy h = nan32 policy h := by
  obtain ⟨he, hm⟩ : exp16 h = 31#5 ∧ frac16 h ≠ 0#10 := by simpa [isNaN16] using hn
  have hm0 : (frac16 h).toNat ≠ 0 := fun h0 => hm (BitVec.eq_of_toNat_eq h0)
  simp [fp16ToFp32, he, hm0]

theorem fp16ToFp32_of_normal (h0 : exp16 h ≠ 0#5) (h31 : exp16 h ≠ 31#5) :
    fp16ToFp32 policy h = pack32 (sign16 h) (BitVec.ofNat 8 ((exp16 h).toNat + 112)) (frac16 h ++ 0#13) := by
  have he0 : (exp16 h).toNat ≠ 0 := fun hz => h0 (BitVec.eq_of_toNat_eq hz)
  have he31 : (exp16 h).toNat ≠ 31 := fun hz => h31 (BitVec.eq_of_toNat_eq hz)
  simp [fp16ToFp32, he0, he31]

/-- R52: outside NaN, every branch of DECODE packs the operand's own sign. -/
theorem sign32_fp16ToFp32 (hn : isNaN16 h = false) : sign32 (fp16ToFp32 policy h) = sign16 h := by
  obtain ⟨he, hm⟩ | ⟨he, hm⟩ | ⟨h0, h31⟩ | ⟨he, hm⟩ := half_classes hn
  · rw [fp16ToFp32_of_zero policy he hm, sign32_pack32]
  · rw [fp16ToFp32_of_subnormal policy he hm, sign32_pack32]
  · rw [fp16ToFp32_of_normal policy h0 h31, sign32_pack32]
  · rw [fp16ToFp32_of_infinity policy he hm, sign32_pack32]

end branches

/-- R48: the NaN of every policy is a NaN; the kept one has the quiet bit 1. -/
theorem isNaN32_nan32 (policy : NanPolicy) (h : Half) : isNaN32 (nan32 policy h) = true := by
  cases policy with
  | propagateQuiet =>
    have hquiet : 1#1 ++ (frac16 h).extractLsb' 0 9 ++ 0#13 ≠ 0#(1 + 9 + 13) := fun h0 => by
      simpa [-Nat.reduceAdd, BitVec.msb_append] using congrArg BitVec.msb h0
    simpa [isNaN32, nan32] using hquiet
  | defaultNan => exact (by decide : isNaN32 0x7FC00000#32 = true)
  | anyNan => exact isNaN32_patternOfNan32 _

/-- R50: DECODE on this hardware leaves its result and changes nothing else. -/
theorem exec_decode (h : Half) (s : State) :
    exec (.decode h) s = .next (s.withResult (fp16ToFp32 Build.hardware.nanPolicy h)) := by
  rw [exec, execDecode]

/-! ### Patterns written without `pack32` -/

/-- Forcing bit 9 of a fraction leaves the nine bits below it. -/
theorem or_quietBit (m : BitVec 10) : m ||| 0x200#10 = 1#1 ++ m.extractLsb' 0 9 := by
  calc m ||| 0x200#10
      = (m.extractLsb' 9 1 ++ m.extractLsb' 0 9) ||| (1#1 ++ 0#9) := by
        rw [BitVec.extractLsb'_append_extractLsb']; rfl
    _ = 1#1 ++ m.extractLsb' 0 9 := by
        rw [BitVec.or_append, BitVec.or_zero, show (1#1 : BitVec 1) = BitVec.allOnes 1 from rfl, BitVec.or_allOnes]

/-- R31: the fraction of a quiet NaN has bit 9 already. -/
theorem or_quietBit_of_quietNan {h : Half} (hq : class16 h = .quietNan) : frac16 h ||| 0x200#10 = frac16 h := by
  have hbit : (frac16 h).extractLsb' 9 1 = 1#1 := by
    unfold class16 at hq
    split_ifs at hq with _ _ _ _ hb
    ext i hi
    obtain rfl : i = 0 := by omega
    simpa using hb
  calc frac16 h ||| 0x200#10
      = (frac16 h).extractLsb' 9 1 ++ (frac16 h).extractLsb' 0 9 := by rw [or_quietBit, hbit]
    _ = frac16 h := BitVec.extractLsb'_append_extractLsb'

/-- A binary32 pattern whose low 13 fraction bits are 0, as one row of fields. -/
theorem pack32_append_zeros (s : BitVec 1) (E : BitVec 8) (m : BitVec 10) :
    pack32 s E (m ++ 0#13) = s ++ E ++ m ++ 0#13 :=
  (BitVec.append_assoc' (x₁ := s ++ E)).trans (BitVec.cast_eq _ _)

/-! ## Values

The magnitude of a finite pattern as a whole number of steps of the format's smallest subnormal, so that
magnitudes of both formats are compared as natural numbers; a value that is no NaN has one pattern
(spec/30_encoding.md R31, R33). -/

/-- The magnitude of a finite pattern with exponent field E and fraction M of w bits, in units of the format's smallest
subnormal. -/
def subnormalUnits (w E M : Nat) : Nat := if E = 0 then M else (2 ^ w + M) * 2 ^ (E - 1)

@[simp] theorem subnormalUnits_zero (w M : Nat) : subnormalUnits w 0 M = M := if_pos rfl

@[simp] theorem subnormalUnits_succ (w E M : Nat) : subnormalUnits w (E + 1) M = (2 ^ w + M) * 2 ^ E :=
  if_neg (by omega)

/-- R31 in units of 2^-24. -/
theorem magnitude16_eq_units (h : Half) :
    magnitude16 h = (subnormalUnits 10 (exp16 h).toNat (frac16 h).toNat : ℚ) * 2 ^ (-24 : ℤ) := by
  rcases he : (exp16 h).toNat with _ | e
  · rw [magnitude16_of_subnormal he rfl, subnormalUnits_zero]
  · rw [magnitude16_of_normal he rfl (by omega), subnormalUnits_succ,
      show ((e + 1 : ℕ) : ℤ) - 25 = (e : ℤ) + -24 by push_cast; ring, zpow_add₀ two_ne_zero, zpow_natCast]
    push_cast
    ring

/-- R33 in units of 2^-149. -/
theorem magnitude32_eq_units (f : Single) :
    magnitude32 f = (subnormalUnits 23 (exp32 f).toNat (frac32 f).toNat : ℚ) * 2 ^ (-149 : ℤ) := by
  rcases hE : (exp32 f).toNat with _ | E
  · rw [magnitude32_of_subnormal hE rfl, subnormalUnits_zero]
  · rw [magnitude32_of_normal hE rfl (by omega), subnormalUnits_succ,
      show ((E + 1 : ℕ) : ℤ) - 150 = (E : ℤ) + -149 by push_cast; ring, zpow_add₀ two_ne_zero, zpow_natCast]
    push_cast
    ring

/-- A binary32 magnitude is a binary16 one when it has 2^125 units for each of the other's. -/
theorem magnitude32_eq_magnitude16 {f : Single} {h : Half}
    (hu : subnormalUnits 23 (exp32 f).toNat (frac32 f).toNat =
      subnormalUnits 10 (exp16 h).toNat (frac16 h).toNat * 2 ^ 125) : magnitude32 f = magnitude16 h := by
  rw [magnitude32_eq_units, magnitude16_eq_units, hu]
  push_cast
  rw [show (-24 : ℤ) = 125 + -149 by norm_num, zpow_add₀ two_ne_zero]
  ring

/-- A pattern with the greater exponent field has the greater magnitude, whatever the fractions are. -/
theorem subnormalUnits_lt {w E E' M M' : Nat} (hM : M < 2 ^ w) (hE : E < E') :
    subnormalUnits w E M < subnormalUnits w E' M' := by
  obtain ⟨d, rfl⟩ := Nat.exists_eq_add_of_lt hE
  have hlow : subnormalUnits w E M < 2 ^ w * 2 ^ E := by
    cases E with
    | zero => simpa using hM
    | succ E => rw [subnormalUnits_succ, pow_succ' 2 E, ← mul_assoc]; gcongr; omega
  rw [subnormalUnits_succ]
  refine hlow.trans_le ?_
  gcongr <;> omega

/-- Exponent field and fraction can be read back from the magnitude. -/
theorem subnormalUnits_inj {w E E' M M' : Nat} (hM : M < 2 ^ w) (hM' : M' < 2 ^ w)
    (h : subnormalUnits w E M = subnormalUnits w E' M') : E = E' ∧ M = M' := by
  obtain hE | rfl | hE := lt_trichotomy E E'
  · exact absurd h (subnormalUnits_lt hM hE).ne
  · refine ⟨rfl, ?_⟩
    cases E with
    | zero => simpa using h
    | succ E => simpa using h
  · exact absurd h (subnormalUnits_lt hM' hE).ne'

theorem magnitude16_inj {g h : Half} (hm : magnitude16 g = magnitude16 h) :
    exp16 g = exp16 h ∧ frac16 g = frac16 h := by
  rw [magnitude16_eq_units, magnitude16_eq_units] at hm
  obtain ⟨he, hf⟩ := subnormalUnits_inj (frac16 g).isLt (frac16 h).isLt
    (Nat.cast_injective (mul_right_cancel₀ (by positivity) hm))
  exact ⟨BitVec.eq_of_toNat_eq he, BitVec.eq_of_toNat_eq hf⟩

theorem magnitude32_inj {f g : Single} (hm : magnitude32 f = magnitude32 g) :
    exp32 f = exp32 g ∧ frac32 f = frac32 g := by
  rw [magnitude32_eq_units, magnitude32_eq_units] at hm
  obtain ⟨hE, hM⟩ := subnormalUnits_inj (frac32 f).isLt (frac32 g).isLt
    (Nat.cast_injective (mul_right_cancel₀ (by positivity) hm))
  exact ⟨BitVec.eq_of_toNat_eq hE, BitVec.eq_of_toNat_eq hM⟩

/-! ### A value has one pattern -/

/-- A sign is the one bit that `negative` of a value tells. -/
theorem sign_eq_of_beq_one_eq {s t : BitVec 1} (h : (s == 1#1) = (t == 1#1)) : s = t := by
  revert s t
  decide

theorem value16_eq_nan_iff (h : Half) : value16 h = .nan ↔ isNaN16 h = true := by
  rw [value16]
  split_ifs <;> simp [isNaN16, *]

theorem value16_eq_infinity_iff (h : Half) (neg : Bool) :
    value16 h = .infinity neg ↔ exp16 h = 31#5 ∧ frac16 h = 0#10 ∧ (sign16 h == 1#1) = neg := by
  rw [value16]
  split_ifs <;> simp [*]

theorem value16_eq_number_iff (h : Half) (neg : Bool) (x : ℚ) :
    value16 h = .number neg x ↔ exp16 h ≠ 31#5 ∧ (sign16 h == 1#1) = neg ∧ magnitude16 h = x := by
  rw [value16]
  split_ifs <;> simp [*]

theorem value32_eq_nan_iff (f : Single) : value32 f = .nan ↔ isNaN32 f = true := by
  rw [value32]
  split_ifs <;> simp [isNaN32, *]

theorem value32_eq_infinity_iff (f : Single) (neg : Bool) :
    value32 f = .infinity neg ↔ exp32 f = 255#8 ∧ frac32 f = 0#23 ∧ (sign32 f == 1#1) = neg := by
  rw [value32]
  split_ifs <;> simp [*]

theorem value32_eq_number_iff (f : Single) (neg : Bool) (x : ℚ) :
    value32 f = .number neg x ↔ exp32 f ≠ 255#8 ∧ (sign32 f == 1#1) = neg ∧ magnitude32 f = x := by
  rw [value32]
  split_ifs <;> simp [*]

/-- A half is determined by its fields. -/
theorem half_ext {g h : Half} (hs : (sign16 g == 1#1) = (sign16 h == 1#1)) (he : exp16 g = exp16 h)
    (hm : frac16 g = frac16 h) : g = h := by
  rw [← pack16_fields g, ← pack16_fields h, sign_eq_of_beq_one_eq hs, he, hm]

/-- A single is determined by its fields. -/
theorem single_ext {f g : Single} (hs : (sign32 f == 1#1) = (sign32 g == 1#1)) (hE : exp32 f = exp32 g)
    (hM : frac32 f = frac32 g) : f = g := by
  rw [← pack32_fields f, ← pack32_fields g, sign_eq_of_beq_one_eq hs, hE, hM]

/-- A value that is no NaN is the value of one half. -/
theorem value16_inj {g h : Half} (hn : isNaN16 g = false) (hv : value16 g = value16 h) : g = h := by
  rcases hg : value16 g with ⟨neg, x⟩ | neg | _
  case number =>
    obtain ⟨-, hsg, hxg⟩ := (value16_eq_number_iff g neg x).mp hg
    obtain ⟨-, hsh, hxh⟩ := (value16_eq_number_iff h neg x).mp (hv ▸ hg)
    obtain ⟨he, hm⟩ := magnitude16_inj (hxg.trans hxh.symm)
    exact half_ext (hsg.trans hsh.symm) he hm
  case infinity =>
    obtain ⟨heg, hmg, hsg⟩ := (value16_eq_infinity_iff g neg).mp hg
    obtain ⟨heh, hmh, hsh⟩ := (value16_eq_infinity_iff h neg).mp (hv ▸ hg)
    exact half_ext (hsg.trans hsh.symm) (heg.trans heh.symm) (hmg.trans hmh.symm)
  case nan => exact absurd ((value16_eq_nan_iff g).mp hg) (by simp [hn])

/-- A value that is no NaN is the value of one single. -/
theorem value32_inj {f g : Single} (hn : isNaN32 f = false) (hv : value32 f = value32 g) : f = g := by
  rcases hf : value32 f with ⟨neg, x⟩ | neg | _
  case number =>
    obtain ⟨-, hsf, hxf⟩ := (value32_eq_number_iff f neg x).mp hf
    obtain ⟨-, hsg, hxg⟩ := (value32_eq_number_iff g neg x).mp (hv ▸ hf)
    obtain ⟨hE, hM⟩ := magnitude32_inj (hxf.trans hxg.symm)
    exact single_ext (hsf.trans hsg.symm) hE hM
  case infinity =>
    obtain ⟨hEf, hMf, hsf⟩ := (value32_eq_infinity_iff f neg).mp hf
    obtain ⟨hEg, hMg, hsg⟩ := (value32_eq_infinity_iff g neg).mp (hv ▸ hf)
    exact single_ext (hsf.trans hsg.symm) (hEf.trans hEg.symm) (hMf.trans hMg.symm)
  case nan => exact absurd ((value32_eq_nan_iff f).mp hf) (by simp [hn])

/-! ### DECODE keeps the value -/

/-- A finite single has the value of a finite half when the signs agree and the units are 2^125 for one. -/
theorem value32_eq_value16_of_finite {f : Single} {h : Half} (hE : exp32 f ≠ 255#8) (he : exp16 h ≠ 31#5)
    (hs : sign32 f = sign16 h) (hu : subnormalUnits 23 (exp32 f).toNat (frac32 f).toNat =
      subnormalUnits 10 (exp16 h).toNat (frac16 h).toNat * 2 ^ 125) : value32 f = value16 h := by
  rw [value32, value16, if_neg hE, if_neg he, hs, magnitude32_eq_magnitude16 hu]

/-- R45: the 13 zeros below the fraction multiply it by 2^13. -/
theorem toNat_append_zeros (m : BitVec 10) : (m ++ 0#13).toNat = m.toNat * 2 ^ 13 := by
  rw [BitVec.toNat_append, BitVec.toNat_ofNat, Nat.zero_mod, Nat.or_zero, Nat.shiftLeft_eq]

/-- R44: the highest set bit of a subnormal's fraction. -/
theorem msbIndex_frac16 {h : Half} (hm : frac16 h ≠ 0#10) : 2 ^ msbIndex (frac16 h).toNat ≤ (frac16 h).toNat ∧
    (frac16 h).toNat < 2 ^ (msbIndex (frac16 h).toNat + 1) ∧ msbIndex (frac16 h).toNat ≤ 9 := by
  have hm0 : (frac16 h).toNat ≠ 0 := fun h0 => hm (BitVec.eq_of_toNat_eq h0)
  exact ⟨Nat.log2_self_le hm0, Nat.lt_log2_self, Nat.le_of_lt_succ ((Nat.log2_lt hm0).mpr (frac16 h).isLt)⟩

/-- R44: with the highest set bit p of m taken as the hidden bit, the other bits fit the fraction, and the significand
is m moved up by 23 - p. -/
theorem normalized_significand {m p : Nat} (hp : p ≤ 9) (hlow : 2 ^ p ≤ m) (hhigh : m < 2 ^ (p + 1)) :
    (m - 2 ^ p) * 2 ^ (23 - p) < 2 ^ 23 ∧ 2 ^ 23 + (m - 2 ^ p) * 2 ^ (23 - p) = m * 2 ^ (23 - p) := by
  obtain ⟨r, rfl⟩ := Nat.exists_eq_add_of_le hlow
  have hr : r < 2 ^ p := by rw [pow_succ] at hhigh; omega
  have hsplit : 2 ^ p * 2 ^ (23 - p) = 2 ^ 23 := by rw [← pow_add]; congr 1; omega
  rw [Nat.add_sub_cancel_left, add_mul, hsplit, ← hsplit]
  exact ⟨Nat.mul_lt_mul_of_pos_right hr (Nat.two_pow_pos _), rfl⟩

section decode
variable (policy : NanPolicy) {h : Half}

/-- R43. -/
theorem value32_fp16ToFp32_of_zero (he : exp16 h = 0#5) (hm : frac16 h = 0#10) :
    value32 (fp16ToFp32 policy h) = value16 h := by
  rw [fp16ToFp32_of_zero policy he hm]
  refine value32_eq_value16_of_finite (by simp) (by simp [he]) (sign32_pack32 ..) ?_
  simp [he, hm]

/-- R46. -/
theorem value32_fp16ToFp32_of_infinity (he : exp16 h = 31#5) (hm : frac16 h = 0#10) :
    value32 (fp16ToFp32 policy h) = value16 h := by
  rw [fp16ToFp32_of_infinity policy he hm]
  simp [value32, value16, he, hm]

/-- R45: the exponent field of a normal result does not wrap. -/
theorem exp32_fp16ToFp32_of_normal (h0 : exp16 h ≠ 0#5) (h31 : exp16 h ≠ 31#5) :
    (exp32 (fp16ToFp32 policy h)).toNat = (exp16 h).toNat + 112 := by
  have := (exp16 h).isLt
  rw [fp16ToFp32_of_normal policy h0 h31, exp32_pack32, BitVec.toNat_ofNat]
  omega

/-- R45: the bias grows by 112 and the fraction by 13 bits, and 2^112 * 2^13 is 2^125. -/
theorem value32_fp16ToFp32_of_normal (h0 : exp16 h ≠ 0#5) (h31 : exp16 h ≠ 31#5) :
    value32 (fp16ToFp32 policy h) = value16 h := by
  have hE := exp32_fp16ToFp32_of_normal policy h0 h31
  have hlt := (exp16 h).isLt
  refine value32_eq_value16_of_finite (fun hc => ?_) h31 ?_ ?_
  · rw [hc, BitVec.toNat_ofNat] at hE
    omega
  · rw [fp16ToFp32_of_normal policy h0 h31, sign32_pack32]
  · obtain ⟨e, he⟩ := Nat.exists_eq_succ_of_ne_zero fun hz => h0 (BitVec.eq_of_toNat_eq hz)
    rw [hE, he, fp16ToFp32_of_normal policy h0 h31, frac32_pack32, toNat_append_zeros, Nat.succ_add, subnormalUnits_succ,
      subnormalUnits_succ]
    ring

/-- R44: the significand is the fraction moved up by 23 - p bits, and 2^(23-p) * 2^(p+102) is 2^125. -/
theorem value32_fp16ToFp32_of_subnormal (he : exp16 h = 0#5) (hm : frac16 h ≠ 0#10) :
    value32 (fp16ToFp32 policy h) = value16 h := by
  obtain ⟨hlow, hhigh, hp⟩ := msbIndex_frac16 hm
  have heq := fp16ToFp32_of_subnormal policy he hm
  generalize msbIndex (frac16 h).toNat = p at *
  obtain ⟨hfit, hsig⟩ := normalized_significand hp hlow hhigh
  have hE : (exp32 (fp16ToFp32 policy h)).toNat = p + 102 + 1 := by
    rw [heq, exp32_pack32, BitVec.toNat_ofNat]
    omega
  refine value32_eq_value16_of_finite (fun hc => ?_) (by simp [he]) (by rw [heq, sign32_pack32]) ?_
  · rw [hc, BitVec.toNat_ofNat] at hE
    omega
  · calc subnormalUnits 23 (exp32 (fp16ToFp32 policy h)).toNat (frac32 (fp16ToFp32 policy h)).toNat
        = (2 ^ 23 + ((frac16 h).toNat - 2 ^ p) * 2 ^ (23 - p)) * 2 ^ (p + 102) := by
          rw [hE, subnormalUnits_succ, heq, frac32_pack32, BitVec.toNat_ofNat, Nat.mod_eq_of_lt hfit]
      _ = (frac16 h).toNat * 2 ^ 125 := by
          rw [hsig, mul_assoc, ← pow_add]
          congr 2
          omega
      _ = subnormalUnits 10 (exp16 h).toNat (frac16 h).toNat * 2 ^ 125 := by
          rw [he, BitVec.toNat_ofNat, Nat.zero_mod, subnormalUnits_zero]

/-- R49: DECODE is exact on every class but NaN. -/
theorem value32_fp16ToFp32 (hn : isNaN16 h = false) : value32 (fp16ToFp32 policy h) = value16 h := by
  obtain ⟨he, hm⟩ | ⟨he, hm⟩ | ⟨h0, h31⟩ | ⟨he, hm⟩ := half_classes hn
  · exact value32_fp16ToFp32_of_zero policy he hm
  · exact value32_fp16ToFp32_of_subnormal policy he hm
  · exact value32_fp16ToFp32_of_normal policy h0 h31
  · exact value32_fp16ToFp32_of_infinity policy he hm

end decode

/-! ## The statements about DECODE -/

/-- Settles O23: the branch of a normal, whose exponent field does not wrap and whose value is kept. -/
theorem decodeOfANormal : Obligations.DecodeOfANormal := by
  intro h s h1 h30
  have h0 : exp16 h ≠ 0#5 := fun hz => by simp [hz] at h1
  have h31 : exp16 h ≠ 31#5 := fun hz => by simp [hz] at h30
  refine ⟨_, exec_decode h s, ?_, ?_, ?_, value32_fp16ToFp32_of_normal _ h0 h31⟩
  · rw [fp16ToFp32_of_normal _ h0 h31, pack32_append_zeros]
    rfl
  · rw [exp32_fp16ToFp32_of_normal _ h0 h31]
    omega
  · rw [exp32_fp16ToFp32_of_normal _ h0 h31]
    omega

/-- Settles O25: a NaN takes the NaN branch, and every policy's NaN is one. -/
theorem decodeOfANaNIsANaN : Obligations.DecodeOfANaNIsANaN := by
  intro policy h hn
  rw [fp16ToFp32_of_nan policy hn]
  exact isNaN32_nan32 policy h

/-- The NaN kept under `PROPAGATE_QUIET`: the operand's fraction with the quiet bit forced (R48). -/
theorem fp16ToFp32_propagateQuiet_of_nan {h : Half} (hn : isNaN16 h = true) :
    fp16ToFp32 .propagateQuiet h = sign16 h ++ 0xFF#8 ++ (frac16 h ||| 0x200#10) ++ 0#13 := by
  rw [fp16ToFp32_of_nan _ hn, nan32, ← or_quietBit, pack32_append_zeros]

/-- Settles O26: the three forms of the kept NaN are one pattern, since forcing the quiet bit is an OR and leaves a
quiet NaN's fraction as it is. -/
theorem decodeOfANaNFollowsThePolicy : Obligations.DecodeOfANaNFollowsThePolicy := by
  intro h hn
  have hkept := fp16ToFp32_propagateQuiet_of_nan hn
  refine ⟨?_, hkept, fun hq => ?_, fp16ToFp32_of_nan .defaultNan hn, fp16ToFp32_of_nan .anyNan hn,
    decodeOfANaNIsANaN .anyNan h hn⟩
  · have hlow : (frac16 h).extractLsb' 0 9 = h.extractLsb' 0 9 := BitVec.extractLsb'_extractLsb'_of_le (by omega)
    have hassoc : sign16 h ++ 0xFF#8 ++ (1#1 ++ h.extractLsb' 0 9) = sign16 h ++ 0xFF#8 ++ 1#1 ++ h.extractLsb' 0 9 :=
      (BitVec.append_assoc' (x₁ := sign16 h ++ 0xFF#8)).trans (BitVec.cast_eq _ _)
    rw [hkept, or_quietBit, hlow, hassoc]
    rfl
  · rw [hkept, or_quietBit_of_quietNan hq]
    rfl

/-- Settles O27: DECODE keeps the value, and outside NaN a value has one pattern in either format. -/
theorem decodeIsLossless : Obligations.DecodeIsLossless := by
  intro policy
  refine ⟨fun h => value32_fp16ToFp32 policy, fun h₁ h₂ hn₁ hn₂ heq => ?_, fun f hf => ⟨?_, ?_⟩⟩
  · refine value16_inj hn₁ ?_
    rw [← value32_fp16ToFp32 policy hn₁, ← value32_fp16ToFp32 policy hn₂, heq]
  · rintro ⟨h, hn, rfl⟩
    exact ⟨h, hn, (value32_fp16ToFp32 policy hn).symm⟩
  · rintro ⟨h, hn, hv⟩
    exact ⟨h, hn, (value32_inj hf (hv.symm.trans (value32_fp16ToFp32 policy hn).symm)).symm⟩

/-- Settles O28: outside NaN every branch packs the operand's sign; the kept NaN packs it too, the default NaN packs 0. -/
theorem decodeKeepsTheSign : Obligations.DecodeKeepsTheSign := by
  refine ⟨fun policy h => sign32_fp16ToFp32 policy, fun h hn => ⟨?_, ?_⟩⟩
  · rw [fp16ToFp32_of_nan _ hn, nan32, sign32_pack32]
  · rw [fp16ToFp32_of_nan _ hn, nan32]
    decide

/-- Settles O21: the lower fifteen bits are exponent field and fraction. -/
theorem decodeOfASignedZero : Obligations.DecodeOfASignedZero := by
  intro h s h0
  have he : exp16 h = 0#5 := by
    rw [exp16, ← BitVec.extractLsb'_extractLsb'_of_le (show 10 + 5 ≤ 15 by omega), h0]
    decide
  have hm : frac16 h = 0#10 := by
    rw [frac16, ← BitVec.extractLsb'_extractLsb'_of_le (show 0 + 10 ≤ 15 by omega), h0]
    decide
  rw [exec_decode, fp16ToFp32_of_zero _ he hm, pack32, BitVec.append_assoc]
  rfl

/-- Settles O24: the branch of an infinity. -/
theorem decodeOfAnInfinity : Obligations.DecodeOfAnInfinity := by
  intro h s he hm
  rw [exec_decode, fp16ToFp32_of_infinity _ he hm]
  rfl

end Sys2Proof.Machine
end

section
/-! SUPPORT. The rounding of `sig / 2^n` to an integer (spec/41_encode_fp32_to_fp16.md R54, R58 step 2): at which
quotients the result passes each integer, and from that its bounds and that it is the nearest. -/

namespace Sys2Proof.Machine

theorem odd_eq_true_iff (q : Nat) : odd q = true ↔ q % 2 = 1 := by simp [odd]

/-- R54 with a quotient and a remainder in place of shift and mask. -/
theorem roundHalfEven_succ (sig p : Nat) : roundHalfEven sig (p + 1) = sig / 2 ^ (p + 1) +
    if 2 ^ p < sig % 2 ^ (p + 1) ∨ (sig % 2 ^ (p + 1) = 2 ^ p ∧ sig / 2 ^ (p + 1) % 2 = 1) then 1 else 0 := by
  simp only [roundHalfEven, Nat.shiftRight_eq_div_pow, odd_eq_true_iff, gt_iff_lt, Nat.add_sub_cancel]
  split_ifs <;> rfl

section
variable {sig n : Nat} (hn : n ≠ 0)
include hn

/-- R58 step 2 as a threshold: the rounded quotient is above j when `sig / 2^n` is above `j + 1/2`, or is
`j + 1/2` and j is odd. -/
theorem lt_roundHalfEven_iff (j : Nat) : j < roundHalfEven sig n ↔
    (2 * j + 1) * 2 ^ n < 2 * sig ∨ ((2 * j + 1) * 2 ^ n = 2 * sig ∧ j % 2 = 1) := by
  obtain ⟨p, rfl⟩ := Nat.exists_eq_add_one_of_ne_zero hn
  have hpos : 0 < 2 ^ p := Nat.two_pow_pos p
  have hrem := Nat.mod_lt sig (Nat.two_pow_pos (p + 1))
  have hsig := Nat.div_add_mod' sig (2 ^ (p + 1))
  rw [roundHalfEven_succ]
  generalize sig / 2 ^ (p + 1) = q at *
  generalize sig % 2 ^ (p + 1) = r at *
  rw [pow_succ] at *
  generalize 2 ^ p = half at *
  subst hsig
  obtain hj | rfl | hj := lt_trichotomy j q
  · obtain ⟨d, rfl⟩ := Nat.exists_eq_add_of_lt hj
    refine iff_of_true (by omega) (.inl ?_)
    nlinarith
  · have hover : (2 * j + 1) * (half * 2) < 2 * (j * (half * 2) + r) ↔ half < r := by
      constructor <;> intro h <;> linarith
    have htie : (2 * j + 1) * (half * 2) = 2 * (j * (half * 2) + r) ↔ r = half := by
      constructor <;> intro h <;> linarith
    rw [hover, htie]
    split_ifs with hup
    · exact iff_of_true (by omega) hup
    · exact iff_of_false (by omega) hup
  · obtain ⟨d, rfl⟩ := Nat.exists_eq_add_of_lt hj
    have hunder : 2 * (q * (half * 2) + r) < (2 * (q + d + 1) + 1) * (half * 2) := by nlinarith
    exact iff_of_false (by split_ifs <;> omega) (by omega)

/-- A quotient of at least b rounds to at least b. -/
theorem le_roundHalfEven {b : Nat} (h : b * 2 ^ n ≤ sig) : b ≤ roundHalfEven sig n := by
  cases b with
  | zero => exact Nat.zero_le _
  | succ j =>
    have := Nat.two_pow_pos n
    exact (lt_roundHalfEven_iff hn j).mpr (.inl (by linarith))

/-- A quotient of at most b rounds to at most b. -/
theorem roundHalfEven_le {b : Nat} (h : sig ≤ b * 2 ^ n) : roundHalfEven sig n ≤ b := by
  have := Nat.two_pow_pos n
  refine not_lt.mp fun hlt => ?_
  rcases (lt_roundHalfEven_iff hn b).mp hlt with h' | ⟨h', -⟩ <;> linarith

/-- A quotient of at most 1/2 rounds to the even 0. -/
theorem roundHalfEven_eq_zero (h : 2 * sig ≤ 2 ^ n) : roundHalfEven sig n = 0 := by
  refine Nat.eq_zero_of_not_pos fun hlt => ?_
  rcases (lt_roundHalfEven_iff hn 0).mp hlt with h' | ⟨-, h'⟩ <;> omega

/-- R58 step 2 about the exact quotient. -/
theorem lt_roundHalfEven_iff_quotient (j : Nat) : j < roundHalfEven sig n ↔
    (j : ℚ) + 1 / 2 < sig / 2 ^ n ∨ ((j : ℚ) + 1 / 2 = sig / 2 ^ n ∧ j % 2 = 1) := by
  have hpos : (0 : ℚ) < 2 ^ n := by positivity
  have hlt : (j : ℚ) + 1 / 2 < sig / 2 ^ n ↔ (2 * j + 1) * 2 ^ n < 2 * sig := by
    rw [lt_div_iff₀ hpos, ← Nat.cast_lt (α := ℚ)]
    push_cast
    constructor <;> intro h <;> linarith
  have heq : (j : ℚ) + 1 / 2 = sig / 2 ^ n ↔ (2 * j + 1) * 2 ^ n = 2 * sig := by
    rw [eq_div_iff hpos.ne', ← Nat.cast_inj (R := ℚ)]
    push_cast
    constructor <;> intro h <;> linarith
  rw [hlt, heq, lt_roundHalfEven_iff hn]

/-- R61: the nearest integer, and the even one of two that are equally near. -/
theorem roundHalfEven_nearest : |(sig : ℚ) / 2 ^ n - roundHalfEven sig n| ≤ 1 / 2 ∧
    (|(sig : ℚ) / 2 ^ n - roundHalfEven sig n| = 1 / 2 → roundHalfEven sig n % 2 = 0) := by
  have hquot : (0 : ℚ) ≤ sig / 2 ^ n := by positivity
  have hthreshold := lt_roundHalfEven_iff_quotient (sig := sig) hn
  generalize roundHalfEven sig n = k at *
  generalize (sig : ℚ) / 2 ^ n = t at *
  obtain ⟨hhigh, htie⟩ : t ≤ k + 1 / 2 ∧ (t = k + 1 / 2 → k % 2 = 0) := by
    obtain ⟨hle, hodd⟩ := not_or.mp ((hthreshold k).not.mp (lt_irrefl k))
    exact ⟨not_lt.mp hle, fun h => Nat.mod_two_ne_one.mp fun h1 => hodd ⟨h.symm, h1⟩⟩
  obtain ⟨hlow, htie'⟩ : (k : ℚ) - 1 / 2 ≤ t ∧ (t = k - 1 / 2 → k % 2 = 0) := by
    cases k with
    | zero => exact ⟨by push_cast; linarith, fun _ => rfl⟩
    | succ j =>
      push_cast
      rcases (hthreshold j).mp (Nat.lt_add_one j) with h | ⟨h, hodd⟩
      · exact ⟨by linarith, fun h' => absurd h' (by linarith)⟩
      · exact ⟨by linarith, fun _ => by omega⟩
  refine ⟨abs_le.mpr ⟨by linarith, by linarith⟩, fun h => ?_⟩
  rcases eq_or_eq_neg_of_abs_eq h with h | h
  · exact htie (by linarith)
  · exact htie' (by linarith)

end

end Sys2Proof.Machine
end

section
/-! SUPPORT. Magnitudes from exponent field and fraction read as one integer, as in ENCODE's result
(spec/41_encode_fp32_to_fp16.md R59): they are in the order of that integer (spec/30_encoding.md R31, R33). -/

namespace Sys2Proof.Machine

/-- The magnitude of a pattern whose exponent field and fraction, of w bits, are the one integer k, in units of the
format's smallest subnormal. -/
def unitsOfBits (w k : Nat) : Nat := subnormalUnits w (k / 2 ^ w) (k % 2 ^ w)

theorem unitsOfBits_of_fields {w M : Nat} (E : Nat) (hM : M < 2 ^ w) :
    unitsOfBits w (E * 2 ^ w + M) = subnormalUnits w E M := by
  rw [unitsOfBits, add_comm, Nat.add_mul_div_right _ _ (Nat.two_pow_pos w), Nat.add_mul_mod_self_right,
    Nat.div_eq_of_lt hM, Nat.mod_eq_of_lt hM, zero_add]

/-- Within binade c, one step of k is 2^c units; the first pattern of the next binade is on the same line, which is why
a carry out of the fraction may move into the exponent field (R59). -/
theorem unitsOfBits_binade {w c q : Nat} (hlow : c = 0 ∨ 2 ^ w ≤ q) (hhigh : q ≤ 2 * 2 ^ w) :
    unitsOfBits w (c * 2 ^ w + q) = q * 2 ^ c := by
  obtain hq | hq := lt_or_ge q (2 ^ w)
  · obtain rfl : c = 0 := by omega
    rw [unitsOfBits_of_fields 0 hq, subnormalUnits_zero, pow_zero, mul_one]
  obtain ⟨m, rfl⟩ := Nat.exists_eq_add_of_le hq
  obtain hm | rfl : m < 2 ^ w ∨ m = 2 ^ w := by omega
  · rw [← add_assoc, ← Nat.succ_mul, unitsOfBits_of_fields _ hm, subnormalUnits_succ]
  · rw [← add_assoc, ← Nat.succ_mul, ← Nat.succ_mul, ← Nat.add_zero (_ * _),
      unitsOfBits_of_fields _ (Nat.two_pow_pos w), subnormalUnits_succ]
    ring

/-- Every k lies in a binade; the subnormals are the lower half of binade 0. -/
theorem exists_binade (w k : Nat) : ∃ c q, k = c * 2 ^ w + q ∧ (c = 0 ∨ 2 ^ w ≤ q) ∧ q < 2 * 2 ^ w := by
  have hmod := Nat.mod_lt k (Nat.two_pow_pos w)
  have hk := Nat.div_add_mod' k (2 ^ w)
  rcases hc : k / 2 ^ w with _ | c <;> rw [hc] at hk
  · exact ⟨0, k % 2 ^ w, hk.symm, .inl rfl, by omega⟩
  · exact ⟨c, 2 ^ w + k % 2 ^ w, by rw [← add_assoc, ← Nat.succ_mul, hk], .inr (by omega), by omega⟩

/-- The greater integer is the greater magnitude. -/
theorem unitsOfBits_strictMono (w : Nat) : StrictMono (unitsOfBits w) := by
  refine strictMono_nat_of_lt_succ fun k => ?_
  obtain ⟨c, q, rfl, hlow, hhigh⟩ := exists_binade w k
  rw [Nat.add_assoc, unitsOfBits_binade hlow hhigh.le, unitsOfBits_binade (by omega) hhigh]
  gcongr
  omega

/-! ### Halves -/

/-- The magnitude of the finite half with magnitude bits k. At 0x7C00, where the infinity stands, it is the 2^16 with
which the next binade would start. -/
def magnitudeOfBits (k : Nat) : ℚ := (unitsOfBits 10 k : ℚ) * 2 ^ (-24 : ℤ)

theorem magnitudeOfBits_strictMono : StrictMono magnitudeOfBits := fun _ _ h =>
  mul_lt_mul_of_pos_right (Nat.cast_lt.mpr (unitsOfBits_strictMono 10 h)) (by positivity)

theorem toNat_magnitudeBits16 (h : Half) :
    (h.extractLsb' 0 15).toNat = (exp16 h).toNat * 2 ^ 10 + (frac16 h).toNat := by
  simp only [exp16, frac16, BitVec.extractLsb'_toNat, Nat.shiftRight_eq_div_pow]
  omega

theorem magnitude16_eq_magnitudeOfBits (h : Half) : magnitude16 h = magnitudeOfBits (h.extractLsb' 0 15).toNat := by
  rw [magnitude16_eq_units, magnitudeOfBits, toNat_magnitudeBits16, unitsOfBits_of_fields _ (frac16 h).isLt]

/-- A finite half has magnitude bits below those of the infinity. -/
theorem magnitudeBits16_lt {h : Half} (he : exp16 h ≠ 31#5) : (h.extractLsb' 0 15).toNat < 0x7C00 := by
  have he31 : (exp16 h).toNat ≠ 31 := fun h31 => he (BitVec.eq_of_toNat_eq h31)
  have := (exp16 h).isLt
  have := (frac16 h).isLt
  rw [toNat_magnitudeBits16]
  omega

theorem sign16_append (s : BitVec 1) (k : BitVec 15) : sign16 (s ++ k) = s := BitVec.extractLsb'_append_eq_left

theorem magnitudeBits_append (s : BitVec 1) (k : BitVec 15) : (s ++ k : Half).extractLsb' 0 15 = k :=
  BitVec.extractLsb'_append_eq_right

theorem sign16_append_magnitudeBits (h : Half) : sign16 h ++ h.extractLsb' 0 15 = h :=
  BitVec.extractLsb'_append_extractLsb'

/-- The distance of R58 in terms of magnitude bits. -/
theorem distance16_eq (x : ℚ) (k : BitVec 15) : distance16 x k = |x - magnitudeOfBits k.toNat| := by
  rw [distance16, magnitude16_eq_magnitudeOfBits, halfOfMagnitudeBits, magnitudeBits_append]

/-- The magnitude halfway between those with magnitude bits j and j + 1. -/
def halfway (j : Nat) : ℚ := (magnitudeOfBits j + magnitudeOfBits (j + 1)) / 2

theorem halfway_lt_magnitudeOfBits {j k : Nat} (h : j < k) : halfway j < magnitudeOfBits k := by
  have hj := magnitudeOfBits_strictMono (Nat.lt_add_one j)
  have hk := magnitudeOfBits_strictMono.monotone (show j + 1 ≤ k from h)
  unfold halfway
  linarith

theorem magnitudeOfBits_lt_halfway {j k : Nat} (h : k ≤ j) : magnitudeOfBits k < halfway j := by
  have hj := magnitudeOfBits_strictMono (Nat.lt_add_one j)
  have hk := magnitudeOfBits_strictMono.monotone h
  unfold halfway
  linarith

/-! ### Singles -/

theorem isFinite32_iff (f : Single) : isFinite32 f = true ↔ exp32 f ≠ 255#8 := by simp [isFinite32]

/-- R33: a single that is no NaN is finite or an infinity. -/
theorem isNaN32_eq_false_iff (f : Single) :
    isNaN32 f = false ↔ isFinite32 f = true ∨ (exp32 f = 255#8 ∧ frac32 f = 0#23) := by
  rw [isFinite32_iff]
  simp only [isNaN32, Bool.and_eq_false_iff, beq_eq_false_iff_ne, bne_eq_false_iff_eq]
  tauto

theorem magnitude32_eq_unitsOfBits (f : Single) :
    magnitude32 f = (unitsOfBits 23 (f.extractLsb' 0 31).toNat : ℚ) * 2 ^ (-149 : ℤ) := by
  have hbits : (f.extractLsb' 0 31).toNat = (exp32 f).toNat * 2 ^ 23 + (frac32 f).toNat := by
    simp only [exp32, frac32, BitVec.extractLsb'_toNat, Nat.shiftRight_eq_div_pow]
    omega
  rw [magnitude32_eq_units, hbits, unitsOfBits_of_fields _ (frac32 f).isLt]

/-- The magnitudes of two singles are in the order of their bits 30..0. -/
theorem magnitude32_lt_iff (f g : Single) :
    magnitude32 f < magnitude32 g ↔ f.extractLsb' 0 31 < g.extractLsb' 0 31 := by
  rw [magnitude32_eq_unitsOfBits, magnitude32_eq_unitsOfBits, mul_lt_mul_iff_left₀ (by positivity), Nat.cast_lt,
    (unitsOfBits_strictMono 23).lt_iff_lt, BitVec.lt_def]

theorem magnitude32_le_iff (f g : Single) :
    magnitude32 f ≤ magnitude32 g ↔ f.extractLsb' 0 31 ≤ g.extractLsb' 0 31 := by
  rw [← not_lt, magnitude32_lt_iff, BitVec.not_lt]

end Sys2Proof.Machine
end

section
/-! SUPPORT. ENCODE (spec/41_encode_fp32_to_fp16.md).

One equation for each branch of `fp32ToFp16`. Its two branches for finite singles are one formula: the magnitude is
`sig / 2^n` steps of some binade of the halves, and the result is that quotient rounded, in that binade. Rounding there
is rounding among all halves, which is one statement about every magnitude (`lt_encodedMagnitude_iff`): the result
passes from j to j + 1 at the magnitude halfway between them, which itself goes to the even one. The statements about
rounding, overflow, underflow and the round trip follow from it. -/

namespace Sys2Proof.Machine

/-- The fifteen magnitude bits that ENCODE gives a finite single (R54). -/
def encodedMagnitude (f : Single) : Nat :=
  if -14 ≤ unbiasedExponent f then normalMagnitude (significand f) (unbiasedExponent f)
  else subnormalMagnitude (significand f) (unbiasedExponent f)

section branches
variable (policy : NanPolicy) {f : Single}

theorem fp32ToFp16_of_infinity (hE : exp32 f = 255#8) (hM : frac32 f = 0#23) :
    fp32ToFp16 policy f = pack16 (sign32 f) 0x1F#5 0#10 := by
  simp [fp32ToFp16, hE, hM]

theorem fp32ToFp16_of_nan (hn : isNaN32 f = true) : fp32ToFp16 policy f = nan16 policy f := by
  obtain ⟨hE, hM⟩ : exp32 f = 255#8 ∧ frac32 f ≠ 0#23 := by simpa [isNaN32] using hn
  simp [fp32ToFp16, hE, hM]

theorem fp32ToFp16_of_finite (hf : isFinite32 f = true) :
    fp32ToFp16 policy f = sign32 f ++ BitVec.ofNat 15 (encodedMagnitude f) := by
  have hE := (isFinite32_iff f).mp hf
  simp only [fp32ToFp16, encodedMagnitude, hE, false_and, if_false, ge_iff_le]
  split_ifs <;> rfl

/-- R63: outside NaN, every branch of ENCODE keeps the operand's own sign. -/
theorem sign16_fp32ToFp16 (hn : isNaN32 f = false) : sign16 (fp32ToFp16 policy f) = sign32 f := by
  obtain hf | ⟨hE, hM⟩ := (isNaN32_eq_false_iff f).mp hn
  · rw [fp32ToFp16_of_finite policy hf, sign16_append]
  · rw [fp32ToFp16_of_infinity policy hE hM, sign16_pack16]

end branches

/-- R65: ENCODE on this hardware leaves its result, with zeros above it, and changes nothing else. -/
theorem exec_encode (f : Single) (s : State) :
    exec (.encode f) s = .next (s.withResult (0#16 ++ fp32ToFp16 Build.hardware.nanPolicy f)) := by
  rw [exec, execEncode]

/-! ### NaN -/

/-- R64: the NaN of every policy is a NaN; the kept one has the quiet bit 1. -/
theorem isNaN16_nan16 (policy : NanPolicy) (f : Single) : isNaN16 (nan16 policy f) = true := by
  cases policy with
  | propagateQuiet =>
    have hquiet : 1#1 ++ (frac32 f).extractLsb' 13 9 ≠ 0#(1 + 9) := fun h0 => by
      simpa [-Nat.reduceAdd, BitVec.msb_append] using congrArg BitVec.msb h0
    simpa [isNaN16, nan16] using hquiet
  | defaultNan => exact (by decide : isNaN16 0x7E00#16 = true)
  | anyNan => exact isNaN16_patternOfNan16 _

theorem class16_ne_infinity_of_nan {h : Half} (hn : isNaN16 h = true) : class16 h ≠ .infinity := by
  obtain ⟨he, hm⟩ : exp16 h = 31#5 ∧ frac16 h ≠ 0#10 := by simpa [isNaN16] using hn
  simp only [class16, he, hm, if_false, reduceIte]
  split_ifs <;> simp

/-- The NaN kept under `PROPAGATE_QUIET`: the top of the operand's fraction with the quiet bit forced (R64). -/
theorem fp32ToFp16_propagateQuiet_of_nan {f : Single} (hn : isNaN32 f = true) :
    fp32ToFp16 .propagateQuiet f = pack16 (sign32 f) 0x1F#5 ((frac32 f).extractLsb' 13 10 ||| 0x200#10) := by
  have hpayload : ((frac32 f).extractLsb' 13 10).extractLsb' 0 9 = (frac32 f).extractLsb' 13 9 := by
    ext i hi
    simp [show i < 10 by omega]
  rw [fp32ToFp16_of_nan _ hn, nan16, or_quietBit, hpayload]

/-! ### The significand and the binade it is rounded in -/

/-- The binade of the halves that a finite single is rounded in. -/
def targetBinade (f : Single) : Nat := (exp32 f).toNat - 113

/-- How many low bits of the significand that binade has no place for: 13, and one more for each power of two below the
normal range (R59, R61). -/
def droppedBits (f : Single) : Nat := 13 + (113 - max (exp32 f).toNat 1)

theorem droppedBits_ne_zero (f : Single) : droppedBits f ≠ 0 := by unfold droppedBits; omega

theorem unbiasedExponent_eq (f : Single) : unbiasedExponent f = (max (exp32 f).toNat 1 : Nat) - (127 : Int) := by
  unfold unbiasedExponent
  split_ifs with h0
  · rw [h0]; rfl
  · have : (exp32 f).toNat ≠ 0 := fun hz => h0 (BitVec.eq_of_toNat_eq hz)
    omega

theorem significand_of_normal {f : Single} (hE : (exp32 f).toNat ≠ 0) : significand f = 2 ^ 23 + (frac32 f).toNat :=
  if_neg fun h0 => hE (by rw [h0]; rfl)

theorem significand_of_subnormal {f : Single} (hE : (exp32 f).toNat = 0) : significand f = (frac32 f).toNat :=
  if_pos (BitVec.eq_of_toNat_eq hE)

theorem significand_lt (f : Single) : significand f < 2 ^ 24 := by
  have := (frac32 f).isLt
  unfold significand
  split_ifs <;> omega

/-- The quotient is at most where its binade ends. -/
theorem significand_le (f : Single) : significand f ≤ 2 * 2 ^ 10 * 2 ^ droppedBits f :=
  calc significand f ≤ 2 * 2 ^ 10 * 2 ^ 13 := (significand_lt f).le
    _ ≤ 2 * 2 ^ 10 * 2 ^ droppedBits f := by gcongr <;> simp [droppedBits]

/-- In the normal range the quotient is at least where its binade starts. -/
theorem le_significand {f : Single} (hE : 113 ≤ (exp32 f).toNat) : 2 ^ 10 * 2 ^ droppedBits f ≤ significand f := by
  rw [significand_of_normal (by omega), droppedBits, show 113 - max (exp32 f).toNat 1 = 0 by omega]
  omega

/-- Below the normal range the rounded quotient is at most the smallest normal half (R61). -/
theorem roundHalfEven_significand_le {f : Single} (hE : (exp32 f).toNat ≤ 112) :
    roundHalfEven (significand f) (droppedBits f) ≤ 2 ^ 10 := by
  refine roundHalfEven_le (droppedBits_ne_zero f) ?_
  calc significand f ≤ 2 ^ 10 * 2 ^ 14 := (significand_lt f).le
    _ ≤ 2 ^ 10 * 2 ^ droppedBits f := by gcongr; exacts [by norm_num, by unfold droppedBits; omega]

/-- The magnitude is `sig / 2^n` steps of the target binade, a step being 2^c * 2^125 units of 2^-149. -/
theorem units_mul_two_pow_droppedBits (f : Single) :
    subnormalUnits 23 (exp32 f).toNat (frac32 f).toNat * 2 ^ droppedBits f =
      significand f * 2 ^ (targetBinade f + 125) := by
  rcases hE : (exp32 f).toNat with _ | E
  · simp [significand_of_subnormal hE, droppedBits, targetBinade, hE]
  · rw [significand_of_normal (by omega), subnormalUnits_succ, mul_assoc, ← pow_add]
    congr 2
    unfold droppedBits targetBinade
    omega

/-- In binade 0 a step is 2^-24 (R61). -/
theorem magnitude32_of_targetBinade_zero {f : Single} (hc : targetBinade f = 0) :
    magnitude32 f = (significand f : ℚ) / 2 ^ droppedBits f * 2 ^ (-24 : ℤ) := by
  have hunits := congrArg (Nat.cast (R := ℚ)) (units_mul_two_pow_droppedBits f)
  rw [hc] at hunits
  push_cast at hunits
  rw [magnitude32_eq_units, div_mul_eq_mul_div, eq_div_iff (by positivity), mul_right_comm, hunits, mul_assoc]
  norm_num

/-- R59 to R61 as one formula: the quotient rounded, in the target binade. -/
theorem encodedMagnitude_eq (f : Single) : encodedMagnitude f =
    min 0x7C00 (targetBinade f * 2 ^ 10 + roundHalfEven (significand f) (droppedBits f)) := by
  have hux := unbiasedExponent_eq f
  by_cases hE : 113 ≤ (exp32 f).toNat
  · have hn : droppedBits f = 13 := by unfold droppedBits; omega
    have hq := le_roundHalfEven (droppedBits_ne_zero f) (le_significand hE)
    rw [hn] at hq ⊢
    rw [encodedMagnitude, if_pos (by omega), normalMagnitude, targetBinade,
      show (unbiasedExponent f + 15).toNat = (exp32 f).toNat - 112 by omega]
    split_ifs <;> omega
  · have hn : (-unbiasedExponent f - 1).toNat = droppedBits f := by unfold droppedBits; omega
    have hq := roundHalfEven_significand_le (f := f) (by omega)
    rw [encodedMagnitude, if_neg (by omega), subnormalMagnitude, hn, targetBinade]
    omega

theorem encodedMagnitude_le (f : Single) : encodedMagnitude f ≤ 0x7C00 := by
  rw [encodedMagnitude_eq]
  exact min_le_left _ _

/-- The fifteen bits do not wrap. -/
theorem toNat_encodedMagnitude (f : Single) : (BitVec.ofNat 15 (encodedMagnitude f)).toNat = encodedMagnitude f := by
  have := encodedMagnitude_le f
  rw [BitVec.toNat_ofNat]
  omega

/-- A finite single encodes to the half of its own sign and magnitude bits k exactly when k is what it is rounded to. -/
theorem fp32ToFp16_eq_iff (policy : NanPolicy) {f : Single} (hf : isFinite32 f = true) (k : BitVec 15) :
    fp32ToFp16 policy f = sign32 f ++ k ↔ encodedMagnitude f = k.toNat := by
  rw [fp32ToFp16_of_finite policy hf, BitVec.append_right_inj, ← BitVec.toNat_inj, toNat_encodedMagnitude]

/-! ### The thresholds between halves -/

/-- Rounding in one binade is rounding among all halves. `U` is a magnitude in units of 2^-149, and is `sig / 2^n` steps
of binade c: halves below that binade are below U, and halves above it are above U. -/
theorem lt_binade_add_roundHalfEven_iff {U sig n c : Nat} (hn : n ≠ 0) (hU : U * 2 ^ n = sig * 2 ^ (c + 125))
    (hhigh : sig ≤ 2 * 2 ^ 10 * 2 ^ n) (hlow : c = 0 ∨ 2 ^ 10 * 2 ^ n ≤ sig) (j : Nat) :
    j < c * 2 ^ 10 + roundHalfEven sig n ↔
      (unitsOfBits 10 j + unitsOfBits 10 (j + 1)) * 2 ^ 124 < U ∨
        ((unitsOfBits 10 j + unitsOfBits 10 (j + 1)) * 2 ^ 124 = U ∧ j % 2 = 1) := by
  have hpos : 0 < 2 ^ n := Nat.two_pow_pos n
  have hposc : 0 < 2 ^ c := Nat.two_pow_pos c
  have hmono := unitsOfBits_strictMono 10
  have hstep := hmono (Nat.lt_add_one j)
  have hscale : U * 2 ^ n = 2 * sig * 2 ^ c * 2 ^ 124 := by rw [hU, pow_add]; ring
  have hlt : ∀ a, a * 2 ^ 124 < U ↔ a * 2 ^ n < 2 * sig * 2 ^ c := fun a => by
    rw [← Nat.mul_lt_mul_right hpos, hscale, mul_right_comm, Nat.mul_lt_mul_right (Nat.two_pow_pos 124)]
  have heq : ∀ a, a * 2 ^ 124 = U ↔ a * 2 ^ n = 2 * sig * 2 ^ c := fun a => by
    rw [← Nat.mul_left_inj hpos.ne', hscale, mul_right_comm, Nat.mul_left_inj (Nat.two_pow_pos 124).ne']
  rw [hlt, heq]
  by_cases hbelow : c ≠ 0 ∧ j < c * 2 ^ 10 + 2 ^ 10
  · obtain ⟨hc, hj⟩ := hbelow
    have hsig := hlow.resolve_left hc
    have hq := le_roundHalfEven hn hsig
    have hunits := hmono.monotone (show j + 1 ≤ _ from hj)
    rw [unitsOfBits_binade (by omega) (by omega)] at hunits
    refine iff_of_true (by omega) (.inl ?_)
    calc (unitsOfBits 10 j + unitsOfBits 10 (j + 1)) * 2 ^ n
        < (2 ^ 10 * 2 ^ c + 2 ^ 10 * 2 ^ c) * 2 ^ n := Nat.mul_lt_mul_of_pos_right (by omega) hpos
      _ = 2 * (2 ^ 10 * 2 ^ n) * 2 ^ c := by ring
      _ ≤ 2 * sig * 2 ^ c := by gcongr
  by_cases habove : c * 2 ^ 10 + 2 * 2 ^ 10 ≤ j
  · have hq := roundHalfEven_le hn hhigh
    have hunits := hmono.monotone habove
    rw [unitsOfBits_binade (by omega) (by omega)] at hunits
    have hover : 2 * sig * 2 ^ c < (unitsOfBits 10 j + unitsOfBits 10 (j + 1)) * 2 ^ n :=
      calc 2 * sig * 2 ^ c ≤ 2 * (2 * 2 ^ 10 * 2 ^ n) * 2 ^ c := by gcongr
        _ = (2 * 2 ^ 10 * 2 ^ c + 2 * 2 ^ 10 * 2 ^ c) * 2 ^ n := by ring
        _ < (unitsOfBits 10 j + unitsOfBits 10 (j + 1)) * 2 ^ n := Nat.mul_lt_mul_of_pos_right (by omega) hpos
    exact iff_of_false (by omega) (by omega)
  · obtain ⟨i, rfl⟩ := Nat.exists_eq_add_of_le (show c * 2 ^ 10 ≤ j by omega)
    rw [Nat.add_assoc _ i, unitsOfBits_binade (by omega) (by omega), unitsOfBits_binade (by omega) (by omega),
      Nat.add_lt_add_iff_left, lt_roundHalfEven_iff hn, ← Nat.mul_lt_mul_right hposc, ← Nat.mul_left_inj hposc.ne',
      show (c * 2 ^ 10 + i) % 2 = i % 2 by omega]
    ring_nf

/-- R58 steps 1 and 2 as thresholds: ENCODE's magnitude bits are above j when the magnitude is above the one halfway
between j and j + 1, or is that one and j is odd. Above the last threshold, 65520, is the infinity. -/
theorem lt_encodedMagnitude_iff (f : Single) {j : Nat} (hj : j < 0x7C00) :
    j < encodedMagnitude f ↔ halfway j < magnitude32 f ∨ (halfway j = magnitude32 f ∧ j % 2 = 1) := by
  have hlow : targetBinade f = 0 ∨ 2 ^ 10 * 2 ^ droppedBits f ≤ significand f := by
    refine or_iff_not_imp_left.mpr fun hc => le_significand ?_
    unfold targetBinade at hc
    omega
  have hhalfway :
      halfway j = (((unitsOfBits 10 j + unitsOfBits 10 (j + 1)) * 2 ^ 124 : Nat) : ℚ) * 2 ^ (-149 : ℤ) := by
    rw [halfway, magnitudeOfBits, magnitudeOfBits, show (-24 : ℤ) = (125 : ℕ) + -149 by norm_num,
      zpow_add₀ two_ne_zero, zpow_natCast]
    push_cast
    ring
  have hpos : (0 : ℚ) < 2 ^ (-149 : ℤ) := by positivity
  rw [encodedMagnitude_eq, lt_min_iff, and_iff_right hj, lt_binade_add_roundHalfEven_iff (droppedBits_ne_zero f)
    (units_mul_two_pow_droppedBits f) (significand_le f) hlow, hhalfway, magnitude32_eq_units,
    mul_lt_mul_iff_left₀ hpos, mul_left_inj' hpos.ne', Nat.cast_lt, Nat.cast_inj]

/-- The threshold after an odd j belongs to j + 1. -/
theorem lt_encodedMagnitude_iff_of_odd (f : Single) {j : Nat} (hj : j < 0x7C00) (hodd : j % 2 = 1) :
    j < encodedMagnitude f ↔ halfway j ≤ magnitude32 f := by
  rw [lt_encodedMagnitude_iff f hj, and_iff_left hodd, ← le_iff_lt_or_eq]

/-- The threshold after an even j belongs to j. -/
theorem lt_encodedMagnitude_iff_of_even (f : Single) {j : Nat} (hj : j < 0x7C00) (heven : j % 2 = 0) :
    j < encodedMagnitude f ↔ halfway j < magnitude32 f := by
  rw [lt_encodedMagnitude_iff f hj]
  exact or_iff_left fun h => by omega

/-! ### The thresholds that the rules name -/

theorem halfway_zero : halfway 0 = 2 ^ (-25 : ℤ) := by
  norm_num [halfway, magnitudeOfBits, unitsOfBits, subnormalUnits]

theorem halfway_one : halfway 1 = 3 * 2 ^ (-25 : ℤ) := by
  norm_num [halfway, magnitudeOfBits, unitsOfBits, subnormalUnits]

theorem halfway_7BFD : halfway 0x7BFD = 65456 := by
  norm_num [halfway, magnitudeOfBits, unitsOfBits, subnormalUnits]

theorem halfway_7BFE : halfway 0x7BFE = 65488 := by
  norm_num [halfway, magnitudeOfBits, unitsOfBits, subnormalUnits]

theorem halfway_7BFF : halfway 0x7BFF = 65520 := by
  norm_num [halfway, magnitudeOfBits, unitsOfBits, subnormalUnits]

/-- R60: 65520 is halfway from the odd 0x7BFF on, and so goes to the infinity. -/
theorem encodedMagnitude_eq_infinity_iff (f : Single) : encodedMagnitude f = 0x7C00 ↔ 65520 ≤ magnitude32 f := by
  have := encodedMagnitude_le f
  rw [← halfway_7BFF, ← lt_encodedMagnitude_iff_of_odd f (by omega) (by omega)]
  omega

/-! ### The nearest half -/

theorem abs_sub_lt_abs_sub_iff (a b x : ℚ) : |x - b| < |x - a| ↔ 0 < (b - a) * (2 * x - (a + b)) := by
  rw [← sq_lt_sq, ← sub_pos, show (x - a) ^ 2 - (x - b) ^ 2 = (b - a) * (2 * x - (a + b)) by ring]

theorem abs_sub_eq_abs_sub_of_add_eq {a b x : ℚ} (h : a + b = 2 * x) : |x - b| = |x - a| := by
  rw [show x - b = -(x - a) by linarith, abs_neg]

/-- R58 step 2: no other finite half is nearer, and where one is as near the result's bit 0 is 0. -/
theorem encodedMagnitude_nearest (f : Single) (hfin : encodedMagnitude f < 0x7C00) {k : Nat}
    (hk : k ≠ encodedMagnitude f) :
    |magnitude32 f - magnitudeOfBits (encodedMagnitude f)| < |magnitude32 f - magnitudeOfBits k| ∨
      (|magnitude32 f - magnitudeOfBits (encodedMagnitude f)| = |magnitude32 f - magnitudeOfBits k| ∧
        encodedMagnitude f % 2 = 0) := by
  have hmono := magnitudeOfBits_strictMono
  have hthreshold := fun j => lt_encodedMagnitude_iff f (j := j)
  generalize encodedMagnitude f = r at *
  generalize magnitude32 f = x at *
  rw [abs_sub_lt_abs_sub_iff]
  rcases lt_or_gt_of_ne hk with hlt | hlt
  · obtain ⟨d, rfl⟩ := Nat.exists_eq_add_of_lt hlt
    have hpos := sub_pos.mpr (hmono hlt)
    have hmid : magnitudeOfBits k + magnitudeOfBits (k + d + 1) ≤ 2 * halfway (k + d) := by
      have := hmono.monotone (show k ≤ k + d by omega)
      unfold halfway
      linarith
    rcases (hthreshold (k + d) (by omega)).mp (by omega) with h | ⟨rfl, hodd⟩
    · exact .inl (mul_pos hpos (by linarith))
    · exact hmid.lt_or_eq.imp (fun h => mul_pos hpos (sub_pos.mpr h)) fun h =>
        ⟨abs_sub_eq_abs_sub_of_add_eq h, by omega⟩
  · have hneg := sub_neg.mpr (hmono hlt)
    have hmid : 2 * halfway r ≤ magnitudeOfBits k + magnitudeOfBits r := by
      have := hmono.monotone (show r + 1 ≤ k from hlt)
      unfold halfway
      linarith
    obtain ⟨hle, hodd⟩ := not_or.mp ((hthreshold r hfin).not.mp (lt_irrefl r))
    have hx : 2 * x ≤ magnitudeOfBits k + magnitudeOfBits r := by linarith
    exact hx.lt_or_eq.imp (fun h => mul_pos_of_neg_of_neg hneg (sub_neg.mpr h)) fun h =>
      ⟨abs_sub_eq_abs_sub_of_add_eq h.symm, Nat.mod_two_ne_one.mp fun h1 => hodd ⟨by linarith, h1⟩⟩

/-! ### ENCODE of a half's value -/

/-- R66: a magnitude that a finite half has is rounded to that half. -/
theorem encodedMagnitude_of_magnitude {f : Single} {k : Nat} (hk : k < 0x7C00)
    (hmag : magnitude32 f = magnitudeOfBits k) : encodedMagnitude f = k := by
  have habove : ∀ j < 0x7C00, j < encodedMagnitude f ↔ j < k := fun j hj => by
    rw [lt_encodedMagnitude_iff f hj, hmag]
    obtain hlt | hle := lt_or_ge j k
    · exact iff_of_true (.inl (halfway_lt_magnitudeOfBits hlt)) hlt
    · have := magnitudeOfBits_lt_halfway hle
      exact iff_of_false (fun h => h.elim this.not_gt fun heq => this.ne' heq.1) hle.not_gt
  refine le_antisymm (not_lt.mp fun hlt => ?_) (not_lt.mp fun hlt => ?_)
  · exact lt_irrefl k ((habove k hk).mp hlt)
  · exact lt_irrefl (encodedMagnitude f) ((habove _ (hlt.trans hk)).mpr hlt)

/-- R66: a single with the value of a half that is no NaN encodes to that half. -/
theorem fp32ToFp16_of_value (policy : NanPolicy) {f : Single} {h : Half} (hn : isNaN16 h = false)
    (hv : value32 f = value16 h) : fp32ToFp16 policy f = h := by
  rcases hh : value16 h with ⟨neg, x⟩ | neg | _ <;> rw [hh] at hv
  case number =>
    obtain ⟨he, hsh, hxh⟩ := (value16_eq_number_iff h neg x).mp hh
    obtain ⟨hE, hsf, hxf⟩ := (value32_eq_number_iff f neg x).mp hv
    have hbits := encodedMagnitude_of_magnitude (magnitudeBits16_lt he)
      (by rw [hxf, ← hxh, magnitude16_eq_magnitudeOfBits])
    rw [(fp32ToFp16_eq_iff policy ((isFinite32_iff f).mpr hE) _).mpr hbits, sign_eq_of_beq_one_eq (hsf.trans hsh.symm),
      sign16_append_magnitudeBits]
  case infinity =>
    obtain ⟨he, hm, hsh⟩ := (value16_eq_infinity_iff h neg).mp hh
    obtain ⟨hE, hM, hsf⟩ := (value32_eq_infinity_iff f neg).mp hv
    rw [fp32ToFp16_of_infinity policy hE hM, sign_eq_of_beq_one_eq (hsf.trans hsh.symm), ← he, ← hm, pack16_fields]
  case nan => exact absurd ((value16_eq_nan_iff h).mp hh) (by simp [hn])

/-! ### The fraction's kept and dropped bits in the normal range -/

theorem toNat_keptFraction (f : Single) : (f.extractLsb' 13 10).toNat = (frac32 f).toNat / 2 ^ 13 := by
  simp only [frac32, BitVec.extractLsb'_toNat, Nat.shiftRight_eq_div_pow]
  omega

theorem toNat_droppedFraction (f : Single) : (f.extractLsb' 0 13).toNat = (frac32 f).toNat % 2 ^ 13 := by
  simp only [frac32, BitVec.extractLsb'_toNat, Nat.shiftRight_eq_div_pow]
  omega

theorem getLsbD_thirteen_iff (f : Single) : f.getLsbD 13 = true ↔ (f.extractLsb' 13 10).toNat % 2 = 1 := by
  rw [← BitVec.testBit_toNat, Nat.testBit_eq_decide_div_mod_eq, decide_eq_true_iff, BitVec.extractLsb'_toNat,
    Nat.shiftRight_eq_div_pow]
  omega

/-- R59: above the kept fraction the quotient has the hidden bit, and rounds up where the dropped bits are over half, or
half with an odd kept fraction. -/
theorem roundHalfEven_significand_of_normal {f : Single} (hE : (exp32 f).toNat ≠ 0) :
    roundHalfEven (significand f) 13 = 2 ^ 10 + (f.extractLsb' 13 10).toNat +
      if 0x1000 < (f.extractLsb' 0 13).toNat ∨ ((f.extractLsb' 0 13).toNat = 0x1000 ∧ f.getLsbD 13 = true)
      then 1 else 0 := by
  have hquot : significand f / 2 ^ 13 = 2 ^ 10 + (f.extractLsb' 13 10).toNat := by
    rw [significand_of_normal hE, toNat_keptFraction]
    omega
  have hrem : significand f % 2 ^ 13 = (f.extractLsb' 0 13).toNat := by
    rw [significand_of_normal hE, toNat_droppedFraction]
    omega
  rw [roundHalfEven_succ, hquot, hrem, Nat.add_mod, show 2 ^ 10 % 2 = 0 by decide, zero_add, Nat.mod_mod]
  simp only [getLsbD_thirteen_iff, Nat.reducePow]

/-! ## The statements about ENCODE -/

/-- Settles O31: a NaN takes the NaN branch, and every policy's NaN is one. -/
theorem encodeOfANaNIsANaN : Obligations.EncodeOfANaNIsANaN := by
  intro policy f hn
  rw [fp32ToFp16_of_nan policy hn]
  exact ⟨isNaN16_nan16 policy f, class16_ne_infinity_of_nan (isNaN16_nan16 policy f)⟩

/-- Settles O32: the two forms of the kept NaN are one pattern, since forcing the quiet bit is an OR. -/
theorem encodeOfANaNFollowsThePolicy : Obligations.EncodeOfANaNFollowsThePolicy := by
  intro f hn
  have hkept : ∀ n ≤ 10, (frac32 f).extractLsb' 13 n = f.extractLsb' 13 n := fun n hle =>
    BitVec.extractLsb'_extractLsb'_of_le (by omega)
  refine ⟨?_, ?_, fp32ToFp16_of_nan .defaultNan hn, fp32ToFp16_of_nan .anyNan hn, (encodeOfANaNIsANaN .anyNan f hn).1⟩
  · rw [fp32ToFp16_of_nan _ hn, nan16, hkept 9 (by omega)]
    exact (BitVec.append_assoc' (x₁ := sign32 f ++ 0x1F#5)).trans (BitVec.cast_eq _ _)
  · rw [fp32ToFp16_propagateQuiet_of_nan hn, hkept 10 le_rfl]
    rfl

/-- Settles O33: less than 2^23 units of 2^-149 are less than half a step of 2^-24. -/
theorem encodeOfAZeroOrSubnormal : Obligations.EncodeOfAZeroOrSubnormal := by
  intro f s hE
  have hfin : isFinite32 f = true := (isFinite32_iff f).mpr (by rw [hE]; decide)
  have hE0 : (exp32 f).toNat = 0 := by rw [hE]; rfl
  have hM := (frac32 f).isLt
  have hzero : roundHalfEven (significand f) (droppedBits f) = 0 := by
    rw [significand_of_subnormal hE0, show droppedBits f = 125 by rw [droppedBits, hE0]; rfl]
    exact roundHalfEven_eq_zero (by omega) (by omega)
  have hbits : encodedMagnitude f = 0 := by rw [encodedMagnitude_eq, hzero, targetBinade, hE0]; rfl
  rw [exec_encode, fp32ToFp16_of_finite _ hfin, hbits]
  rfl

/-- Settles O34: the sign is kept, from 65520 on the result is the infinity, and below it the nearest half. -/
theorem encodeRoundsToNearestEven : Obligations.EncodeRoundsToNearestEven := by
  intro policy f hf
  refine ⟨(value32_eq_number_iff f _ _).mpr ⟨(isFinite32_iff f).mp hf, rfl, rfl⟩, ?_⟩
  have hbits := toNat_encodedMagnitude f
  rw [IsRne16, fp32ToFp16_of_finite policy hf, sign16_append, magnitudeBits_append]
  refine ⟨rfl, ?_⟩
  split_ifs with hover
  · rw [(encodedMagnitude_eq_infinity_iff f).mpr hover]
  · have hfin : encodedMagnitude f < 0x7C00 :=
      (encodedMagnitude_le f).lt_of_ne ((encodedMagnitude_eq_infinity_iff f).not.mpr hover)
    have hbit0 : encodedMagnitude f % 2 = 0 → (BitVec.ofNat 15 (encodedMagnitude f)).getLsbD 0 = false := fun h => by
      rw [← BitVec.testBit_toNat, hbits, Nat.testBit_zero, h]; rfl
    refine ⟨by rw [BitVec.lt_def, hbits]; exact hfin, fun k _ hk => ?_⟩
    have hk' : k.toNat ≠ encodedMagnitude f := by rwa [← hbits, Ne, BitVec.toNat_inj]
    rw [distance16_eq, distance16_eq, hbits]
    exact (encodedMagnitude_nearest f hfin hk').imp_right (And.imp_right hbit0)

/-- Settles O36: the target binade is the exponent field less 113, and the quotient's hidden bit adds 1 to it. -/
theorem encodeInTheNormalRange : Obligations.EncodeInTheNormalRange := by
  intro f s h113 h142 kept r up
  have hfin : isFinite32 f = true := (isFinite32_iff f).mpr fun h => by simp [h] at h142
  have hn : droppedBits f = 13 := by unfold droppedBits; omega
  have hround : roundHalfEven (significand f) 13 = 2 ^ 10 + kept + up :=
    roundHalfEven_significand_of_normal (by omega)
  have hkept : kept < 2 ^ 10 := (f.extractLsb' 13 10).isLt
  have hup : up ≤ 1 := by simp only [up]; split_ifs <;> omega
  have hbits := encodedMagnitude_eq f
  rw [hn, hround, targetBinade] at hbits
  have hsum : encodedMagnitude f = ((exp32 f).toNat - 112) * 2 ^ 10 + kept + up := by omega
  refine ⟨?_, by omega⟩
  rw [exec_encode, fp32ToFp16_of_finite _ hfin, hsum]
  rfl

/-- The singles at the thresholds of R60. -/
theorem magnitude32_overflow_thresholds : magnitude32 0x477FD000#32 = 65488 ∧ magnitude32 0x477FF000#32 = 65520 := by
  constructor
  · rw [magnitude32_of_normal (E := 142) (M := 0x7FD000) (by decide) (by decide) (by decide)]; norm_num
  · rw [magnitude32_of_normal (E := 142) (M := 0x7FF000) (by decide) (by decide) (by decide)]; norm_num

/-- Settles O37: 65520 and 65488 are the last two thresholds, the first after an odd pattern and the other after an even
one. -/
theorem encodeOverflowsFrom65520 : Obligations.EncodeOverflowsFrom65520 := by
  intro policy f hf
  obtain ⟨h65488, h65520⟩ := magnitude32_overflow_thresholds
  have hinf : f.extractLsb' 31 1 ++ 0x1F#5 ++ 0#10 = (sign32 f ++ 0x7C00#15 : Half) :=
    BitVec.append_assoc.trans (BitVec.cast_eq _ _)
  have above7BFD := lt_encodedMagnitude_iff_of_odd f (j := 0x7BFD) (by omega) (by omega)
  have above7BFE := lt_encodedMagnitude_iff_of_even f (j := 0x7BFE) (by omega) (by omega)
  have above7BFF := lt_encodedMagnitude_iff_of_odd f (j := 0x7BFF) (by omega) (by omega)
  rw [halfway_7BFD] at above7BFD
  rw [halfway_7BFE] at above7BFE
  rw [halfway_7BFF] at above7BFF
  refine ⟨?_, ?_, ?_, fun ⟨hlow, hhigh⟩ => ?_, fun hmid => ?_⟩
  · rw [hinf, fp32ToFp16_eq_iff policy hf]
    exact encodedMagnitude_eq_infinity_iff f
  · rw [← h65520, magnitude32_le_iff]
    rfl
  · rw [← h65520, ← h65488, magnitude32_lt_iff, magnitude32_lt_iff]
    rfl
  · refine (fp32ToFp16_eq_iff policy hf 0x7BFF#15).mpr (le_antisymm ?_ (above7BFE.mpr hlow))
    exact not_lt.mp (above7BFF.not.mpr hhigh.not_ge)
  · refine (fp32ToFp16_eq_iff policy hf 0x7BFE#15).mpr (le_antisymm ?_ (above7BFD.mpr (by rw [hmid]; norm_num)))
    exact not_lt.mp (above7BFE.not.mpr hmid.not_gt)

/-- Settles O38: the target binade is 0, so the bits are the rounded quotient itself. -/
theorem encodeInTheSubnormalRange : Obligations.EncodeInTheSubnormalRange := by
  intro policy f h1 h112 sig n
  have hfin : isFinite32 f = true := (isFinite32_iff f).mpr fun h => by simp [h] at h112
  have hn : droppedBits f = n := by simp only [n, droppedBits]; omega
  have hsig : significand f = sig := significand_of_normal (by omega)
  have hbinade : targetBinade f = 0 := by unfold targetBinade; omega
  have hn0 := droppedBits_ne_zero f
  have hround := roundHalfEven_significand_le h112
  have hbits := encodedMagnitude_eq f
  rw [hbinade, zero_mul, zero_add, min_eq_right (by omega)] at hbits
  rw [← hn, ← hsig]
  obtain ⟨hnear, htie⟩ := roundHalfEven_nearest (sig := significand f) hn0
  have hn14 : 14 ≤ droppedBits f := by unfold droppedBits; omega
  refine ⟨magnitude32_of_targetBinade_zero hbinade, hn14, _, hround, ?_, hnear, htie, fun h25 => ?_⟩
  · rw [← hbits]
    exact fp32ToFp16_of_finite policy hfin
  · have hsmall := significand_lt f
    refine roundHalfEven_eq_zero hn0 ?_
    calc 2 * significand f ≤ 2 ^ 25 := by omega
      _ ≤ 2 ^ droppedBits f := Nat.pow_le_pow_right (by omega) h25

/-- The singles at the thresholds of R62. -/
theorem magnitude32_underflow_thresholds :
    magnitude32 0x33000000#32 = 2 ^ (-25 : ℤ) ∧ magnitude32 0x33C00000#32 = 3 * 2 ^ (-25 : ℤ) := by
  constructor
  · rw [magnitude32_of_normal (E := 102) (M := 0) (by decide) (by decide) (by decide)]; norm_num
  · rw [magnitude32_of_normal (E := 103) (M := 0x400000) (by decide) (by decide) (by decide)]; norm_num

/-- Settles O39: 2^-25 and 3 * 2^-25 are the first two thresholds, after the even 0 and after the odd 1. -/
theorem encodeUnderflowsUpToTwoToTheMinus25 : Obligations.EncodeUnderflowsUpToTwoToTheMinus25 := by
  intro policy f hf
  obtain ⟨hfirst, hsecond⟩ := magnitude32_underflow_thresholds
  have above0 := lt_encodedMagnitude_iff_of_even f (j := 0) (by omega) (by omega)
  have above1 := lt_encodedMagnitude_iff_of_odd f (j := 1) (by omega) (by omega)
  rw [halfway_zero] at above0
  rw [halfway_one] at above1
  refine ⟨?_, ?_, ?_, ?_⟩
  · refine (fp32ToFp16_eq_iff policy hf 0#15).trans ?_
    rw [← not_lt, ← above0, BitVec.toNat_ofNat]
    omega
  · rw [← hfirst, magnitude32_le_iff]
    rfl
  · refine (fp32ToFp16_eq_iff policy hf 1#15).trans ?_
    rw [← above0, ← not_le (a := 3 * _), ← above1, BitVec.toNat_ofNat]
    omega
  · rw [← hsecond, ← hfirst, magnitude32_lt_iff, magnitude32_lt_iff]
    rfl

/-- Settles O40: outside NaN every branch keeps the operand's sign; so does the kept NaN, and the default NaN has 0. -/
theorem encodeKeepsTheSign : Obligations.EncodeKeepsTheSign := by
  refine ⟨fun policy f => sign16_fp32ToFp16 policy, fun f hn => ⟨?_, ?_⟩⟩
  · rw [fp32ToFp16_of_nan _ hn, nan16, sign16_pack16]
  · rw [fp32ToFp16_of_nan _ hn, nan16]
    decide

/-- Settles O41: DECODE keeps the value, and ENCODE gives a half's value back as that half; a NaN's payload goes up by
13 bits and down again, with the quiet bit forced. -/
theorem encodeUndoesDecode : Obligations.EncodeUndoesDecode := by
  intro h
  refine ⟨fun hn policy => fp32ToFp16_of_value policy hn (value32_fp16ToFp32 policy hn), fun hn => ?_⟩
  have hnan := fun policy => decodeOfANaNIsANaN policy h hn
  refine ⟨?_, fp32ToFp16_of_nan _ (hnan _), (encodeOfANaNIsANaN _ _ (hnan _)).1⟩
  obtain ⟨he, -⟩ : exp16 h = 31#5 ∧ frac16 h ≠ 0#10 := by simpa [isNaN16] using hn
  have hdec : fp16ToFp32 .propagateQuiet h = pack32 (sign16 h) 0xFF#8 ((frac16 h ||| 0x200#10) ++ 0#13) := by
    rw [fp16ToFp32_of_nan _ hn, nan32, or_quietBit]
  have hpayload : ((frac16 h ||| 0x200#10) ++ 0#13).extractLsb' 13 10 = frac16 h ||| 0x200#10 :=
    BitVec.extractLsb'_append_eq_left
  calc fp32ToFp16 .propagateQuiet (fp16ToFp32 .propagateQuiet h)
      = pack16 (sign16 h) 0x1F#5 (frac16 h ||| 0x200#10) := by
        rw [fp32ToFp16_propagateQuiet_of_nan (hnan _), hdec, sign32_pack32, frac32_pack32, hpayload, BitVec.or_assoc,
          BitVec.or_self]
    _ = pack16 (sign16 h) (exp16 h) (frac16 h) ||| (0#1 ++ 0#5 ++ 0x200#10) := by
        rw [pack16, pack16, BitVec.or_append, BitVec.or_append, BitVec.or_zero, BitVec.or_zero, he]
    _ = h ||| 0x0200#16 := by
        rw [pack16_fields]
        rfl

/-- Settles O30: the branch of an infinity. -/
theorem encodeOfAnInfinity : Obligations.EncodeOfAnInfinity := by
  intro f s hE hM
  rw [exec_encode, fp32ToFp16_of_infinity _ hE hM]
  rfl

end Sys2Proof.Machine
end

section
/-! SUPPORT. Clock cycles of a pipelined unit: an edge with `rst` = 0 moves every stage one on, so that what one cycle
captures is at the port after L edges (spec/10_state.md R21; spec/70_reset_and_hazards.md R86). -/

namespace Sys2Proof.Machine

section cycles
variable {ι : Type} {w : Nat} {eval : ι → Option (BitVec w)} {L : Nat} {u : CodecUnit ι w} {c : CycleInputs ι}
  {cs : List (CycleInputs ι)}

/-- The unit with the inputs of a clock cycle on its ports. -/
def CodecUnit.withInputs (u : CodecUnit ι w) (c : CycleInputs ι) : CodecUnit ι w :=
  { u with operand := c.operand, rst := c.rst, inValid := c.inValid }

theorem CodecUnit.cycle_eq : u.cycle eval L c = ((u.withInputs c).risingEdgeOn eval L).outcome := rfl

theorem CodecUnit.cyclesOn_cons :
    u.cyclesOn eval L (c :: cs) = ((u.withInputs c).risingEdgeOn eval L).after.cyclesOn eval L cs := rfl

theorem CodecUnit.cycles_cons :
    u.cycles eval L (c :: cs) = andThen (u.cycle eval L c) (CodecUnit.cycles eval L cs) := rfl

/-- R21: an edge with `rst` = 0 moves a stage one on. -/
theorem CodecUnit.risingEdgeOn_getElem?_succ {k : Nat} (hr : u.rst.read = some 0#1) (hk : k + 1 < L) :
    (u.risingEdgeOn eval L).after.stages[k + 1]? = u.stages[k]? := by
  rw [CodecUnit.risingEdgeOn_shift hr, shiftStages_getElem? hk, List.getElem?_cons_succ]

/-- R21: an edge with `rst` = 0 captures what is presented in `stage[0]`. -/
theorem CodecUnit.risingEdgeOn_getElem?_zero (hr : u.rst.read = some 0#1) (hL : 0 < L) :
    (u.risingEdgeOn eval L).after.stages[0]? = some (u.captured eval) := by
  rw [CodecUnit.risingEdgeOn_shift hr, shiftStages_getElem? hL, List.getElem?_cons_zero]

/-- Clock cycles keep the number of stages, whatever they present. -/
theorem CodecUnit.cyclesOn_length (hu : u.stages.length = L) : (u.cyclesOn eval L cs).stages.length = L := by
  induction cs generalizing u with
  | nil => exact hu
  | cons c cs ih => exact ih (CodecUnit.risingEdgeOn_length hu)

/-- R21, R78: cycles with `rst` = 0 move a stage on by their number, whatever else they present. -/
theorem CodecUnit.cyclesOn_getElem? {k : Nat} (hr : ∀ d ∈ cs, d.rst.read = some 0#1) (hk : k + cs.length < L) :
    (u.cyclesOn eval L cs).stages[k + cs.length]? = u.stages[k]? := by
  induction cs generalizing u k with
  | nil => rfl
  | cons c cs ih =>
    obtain ⟨hc, hcs⟩ := List.forall_mem_cons.1 hr
    rw [List.length_cons, ← Nat.add_assoc, Nat.add_right_comm] at hk ⊢
    rw [CodecUnit.cyclesOn_cons, ih hcs hk]
    exact CodecUnit.risingEdgeOn_getElem?_succ hc (by omega)

/-- R21: the output ports show the last stage. -/
theorem CodecUnit.ports_of_last_stage {g : Stage w} (hL : 0 < L) (hu : u.stages.length = L)
    (hg : u.stages[L - 1]? = some g) : u.outValid = g.v ∧ u.output eval L = g.value := by
  have hlast : u.stages.getLast? = some g := by rw [List.getLast?_eq_getElem?, hu, hg]
  simp [CodecUnit.outValid, CodecUnit.output, hlast, Nat.ne_of_gt hL]

/-- R72: where a cycle's inputs are ready, no fault is captured with them. -/
theorem CycleInputs.Ready.captured_fault (hc : c.Ready eval) : ((u.withInputs c).captured eval).fault = none := by
  obtain ⟨-, hv | ⟨hv, he⟩⟩ := hc
  · rw [CodecUnit.captured_of_invalid hv]
  · obtain ⟨v, he⟩ := Option.isSome_iff_exists.1 he
    rw [CodecUnit.captured_of_result hv he]

/-- R72: a cycle whose inputs are ready records no fault. -/
theorem CycleInputs.Ready.cycle_eq_next (hc : c.Ready eval) :
    u.cycle eval L c = .next ((u.withInputs c).risingEdgeOn eval L).after := by
  rw [CodecUnit.cycle_eq, Advance.outcome_eq_next, CodecUnit.risingEdgeOn_shift hc.1]
  exact ⟨hc.captured_fault, rfl⟩

/-- R72: cycles whose inputs are all ready record no fault. -/
theorem CodecUnit.cycles_eq_next_of_ready (hcs : ∀ d ∈ cs, d.Ready eval) :
    u.cycles eval L cs = .next (u.cyclesOn eval L cs) := by
  induction cs generalizing u with
  | nil => rfl
  | cons c cs ih =>
    obtain ⟨hc, hcs⟩ := List.forall_mem_cons.1 hcs
    rw [CodecUnit.cycles_cons, hc.cycle_eq_next, CodecUnit.cyclesOn_cons]
    exact ih hcs

/-- R86 for any unit: the edge of the transaction's own cycle captures its result in `stage[0]`, and the L - 1 edges
after it move that stage on to the last. -/
theorem resultAppearsAfter (eval : ι → Option (BitVec w)) (L : Nat) : ResultAppearsAfter eval L := by
  intro u c later v hu hr hv he hlater hrst
  have hL : 0 < L := by omega
  have hready : c.Ready eval := ⟨hr, .inr ⟨hv, Option.isSome_of_eq_some he⟩⟩
  have hlast : (u.cyclesOn eval L (c :: later)).stages[L - 1]? = some { v := true, r := v, fault := none } := by
    calc (u.cyclesOn eval L (c :: later)).stages[L - 1]?
        = (u.cyclesOn eval L (c :: later)).stages[0 + later.length]? := by rw [← hlater]; simp
      _ = ((u.withInputs c).risingEdgeOn eval L).after.stages[0]? := CodecUnit.cyclesOn_getElem? hrst (by omega)
      _ = some ((u.withInputs c).captured eval) := CodecUnit.risingEdgeOn_getElem?_zero hr hL
      _ = some { v := true, r := v, fault := none } := by rw [CodecUnit.captured_of_result hv he]
  obtain ⟨hvalid, hout⟩ := CodecUnit.ports_of_last_stage (eval := eval) hL (CodecUnit.cyclesOn_length hu) hlast
  exact ⟨hvalid, hout, fun hall => CodecUnit.cycles_eq_next_of_ready (List.forall_mem_cons.2 ⟨hready, hall⟩)⟩

end cycles

/-! ### What a JOINT unit computes -/

@[simp] theorem opOf_append (op : BitVec 1) (a : BitVec 32) : opOf (op ++ a) = op := BitVec.extractLsb'_append_eq_left

@[simp] theorem operandOf_append (op : BitVec 1) (a : BitVec 32) : operandOf (op ++ a) = a :=
  BitVec.extractLsb'_append_eq_right

/-- R36: `CODEC` of a DECODE is DECODE of its operand's low half, whatever stands in `a[31:16]`. -/
theorem codec_op_zero (policy : NanPolicy) (high : BitVec 16) (h : Half) :
    codec policy 0#1 (high ++ h) = fp16ToFp32 policy h := by
  rw [codec, if_pos rfl, BitVec.extractLsb'_append_eq_right]

/-- R20: a JOINT unit whose ports are driven to T computes `CODEC` of T, since `CODEC` ignores what a DECODE does not
read. -/
theorem jointEval_drive (policy : NanPolicy) (T : Transaction) :
    jointEval policy (JointPorts.drive T) = some (codec policy (opOf T) (operandOf T)) := by
  rw [jointEval, JointPorts.word_drive, ← opOf, ← operandOf, Option.map_some]
  rcases BitVec.eq_zero_or_eq_one (opOf T) with hop | hop
  · rw [hop, if_pos rfl, opOf_append, operandOf_append, codec_op_zero, codec, if_pos rfl]
  · rw [hop, if_neg (by decide), opOf_append, operandOf_append]

/-- Settles O55: at L > 0 by R86's lemma for any unit, at L = 0 by what a JOINT unit computes from driven ports. -/
theorem aResultAppearsAfterLatencyEdges : Obligations.AResultAppearsAfterLatencyEdges := by
  intro policy
  refine ⟨fun L _ => ⟨resultAppearsAfter _ L, resultAppearsAfter _ L, resultAppearsAfter _ L⟩,
    jointEval_drive policy, fun u T hheld hoperand => CodecUnit.evaluate_eq_next.2 ⟨hheld, _, ?_, rfl⟩, rfl⟩
  rw [hoperand, jointEval_drive]

end Sys2Proof.Machine
end

section
/-! SUPPORT. Transaction words: what the decoder reads back from an assembled word, and which bits of a word assembling
does not restore (spec/30_encoding.md R35 to R40). -/

namespace Sys2Proof

/-- A word is its two parts (R35). -/
theorem opOf_append_operandOf (T : Transaction) : opOf T ++ operandOf T = T := BitVec.extractLsb'_append_extractLsb'

/-- R35, R40: the decoder reads an assembled word as its instruction. -/
theorem decodeWord_encode (i : Instr) : decodeWord (encode i) = i := by
  cases i with
  | decode h => exact Machine.decodeWord_op_zero 0#16 h
  | encode f => exact Machine.decodeWord_op_one f

/-- R36: an assembled DECODE has zeros at `a[31:16]`, an assembled ENCODE keeps all of `a`. -/
theorem encode_decodeWord (T : Transaction) :
    encode (decodeWord T) = if opOf T = 0#1 then 0#1 ++ (0#16 ++ (operandOf T).extractLsb' 0 16) else T := by
  by_cases hop : opOf T = 0#1
  · rw [decodeWord, if_pos hop, if_pos hop, encode]
  · have hop1 := (BitVec.eq_zero_or_eq_one (opOf T)).resolve_left hop
    rw [decodeWord, if_neg hop, if_neg hop, encode, ← hop1, opOf_append_operandOf]

/-- The mask of what a DECODE reads of its operand clears `a[31:16]`. -/
theorem and_lowHalfMask (a : BitVec 32) : a &&& 0x0000FFFF#32 = 0#16 ++ a.extractLsb' 0 16 := by
  have ha : a.extractLsb' 16 16 ++ a.extractLsb' 0 16 = a := BitVec.extractLsb'_append_extractLsb'
  calc a &&& 0x0000FFFF#32
      = (a.extractLsb' 16 16 ++ a.extractLsb' 0 16) &&& (0#16 ++ BitVec.allOnes 16) := by rw [ha]; rfl
    _ = 0#16 ++ a.extractLsb' 0 16 := by rw [BitVec.and_append, BitVec.and_zero, BitVec.and_allOnes]

/-- Settles O4: the decoder's one check is the width. -/
theorem onlyThirtyThreeBitNumbersDecode : Obligations.OnlyThirtyThreeBitNumbersDecode := by
  intro nbits w
  rw [decodeTableWord, decodeNat, transactionWordOk]
  simp only [decide_eq_true_iff]
  split_ifs <;> rfl

/-- Settles O1: a word's number fits the 33 bits, and is decoded as the word is. -/
theorem decodingTheAssembledWordGivesTheInstruction : Obligations.DecodingTheAssembledWordGivesTheInstruction := by
  intro i _
  refine ⟨decodeWord_encode i, ?_⟩
  have hw : (encode i).toNat % 2 ^ 33 = (encode i).toNat := Nat.mod_eq_of_lt (encode i).isLt
  rw [onlyThirtyThreeBitNumbersDecode, hw, if_pos (encode i).isLt, BitVec.ofNat_toNat, BitVec.setWidth_eq,
    decodeWord_encode]

/-- Settles O2: with `op` 0 the zeros at `a[31:16]` are those that the mask leaves. -/
theorem onlyTheIgnoredBitsOfAWordAreLost : Obligations.OnlyTheIgnoredBitsOfAWordAreLost := by
  intro T
  rw [encode_decodeWord]
  split_ifs with hop
  · calc 0#1 ++ (0#16 ++ (operandOf T).extractLsb' 0 16)
        = (opOf T ++ operandOf T) &&& (0#1 ++ 0x0000FFFF#32) := by
          rw [BitVec.and_append, BitVec.and_zero, and_lowHalfMask]
      _ = T &&& 0x00000FFFF#33 := by rw [opOf_append_operandOf]; rfl
  · rfl

/-- Settles O5: each word is evaluated. -/
theorem writtenWordsDecodeAsTheSpecSays : Obligations.WrittenWordsDecodeAsTheSpecSays := by
  unfold Obligations.WrittenWordsDecodeAsTheSpecSays
  decide

end Sys2Proof
end

section
/-! SUPPORT. The step of this hardware and of every LATENCY = 0 build: when it answers next, with what, and what it
leaves unchanged (spec/10_state.md R20; spec/60_exceptions.md R72; spec/70_reset_and_hazards.md R85). -/

namespace Sys2Proof.Machine

/-! ### What a unit reads of its ports -/

section ports
variable {p : JointPorts}

/-- R36: with `op` 0 only the low half of `a` is read. -/
theorem JointPorts.word_of_decode (hop : p.op.read = some 0#1) :
    p.word = p.a.low16.read.map fun h => 0#1 ++ (0#16 ++ h) := by
  simp [JointPorts.word, hop]

/-- R35: with `op` 1 all of `a` is read. -/
theorem JointPorts.word_of_encode (hop : p.op.read = some 1#1) : p.word = p.a.read.map fun f => 1#1 ++ f := by
  simp [JointPorts.word, hop]

/-- R72: a JOINT unit has no transaction exactly where a wire that the operation reads is not driven. -/
theorem JointPorts.word_eq_none_iff (p : JointPorts) : p.word = none ↔ p.Undriven := by
  rw [JointPorts.Undriven, Port.undriven_iff_read]
  cases hop : p.op.read with
  | none => simp [JointPorts.word, hop]
  | some op =>
    have hones : p.op.ones = op := by rw [(p.op.read_eq_some_iff op).1 hop]; rfl
    rcases BitVec.eq_zero_or_eq_one op with rfl | rfl
    · rw [JointPorts.word_of_decode hop, Option.map_eq_none_iff, hones, if_pos rfl, ← Port.undriven_iff_read,
        Port.undriven_low16]
      simp
    · rw [JointPorts.word_of_encode hop, Option.map_eq_none_iff, hones, if_neg (by decide), Port.undriven_iff_read]
      simp

variable (policy : NanPolicy)

theorem jointEval_eq_none_iff (p : JointPorts) : jointEval policy p = none ↔ p.Undriven := by
  rw [jointEval, Option.map_eq_none_iff, JointPorts.word_eq_none_iff]

theorem decodeUnitEval_eq_none_iff (hIn : Port 16) : decodeUnitEval policy hIn = none ↔ hIn.Undriven 16 := by
  rw [decodeUnitEval, Option.map_eq_none_iff, Port.undriven_iff_read]

theorem encodeUnitEval_eq_none_iff (fIn : Port 32) : encodeUnitEval policy fIn = none ↔ fIn.Undriven 32 := by
  rw [encodeUnitEval, Option.map_eq_none_iff, Port.undriven_iff_read]

theorem decodeUnitEval_drive (h : Half) : decodeUnitEval policy (Port.drive h) = some (fp16ToFp32 policy h) := by
  rw [decodeUnitEval, Port.read_drive, Option.map_some]

theorem encodeUnitEval_drive (f : Single) : encodeUnitEval policy (Port.drive f) = some (fp32ToFp16 policy f) := by
  rw [encodeUnitEval, Port.read_drive, Option.map_some]

end ports

/-- The output port `y` at LATENCY = 0 carries `CODEC` of the presented transaction (R20, R82). -/
theorem output_joint_eq (policy : NanPolicy) (u : CodecUnit JointPorts 32) :
    u.output (jointEval policy) 0 = u.presented.map fun T => codec policy (opOf T) (operandOf T) := by
  rw [CodecUnit.output_zero, CodecUnit.presented]
  cases u.held <;> rfl

/-! ### The step of this hardware -/

section step
variable {s t : State}

/-- All that a step can do when it goes on: it leaves `CODEC` of the presented transaction as the result (R20, R25). -/
theorem step_eq_next_iff : step s = .next t ↔
    ∃ T, s.joint.presented = some T ∧ s.withResult (codec .propagateQuiet (opOf T) (operandOf T)) = t := by
  cases hp : s.joint.presented with
  | none => simp [step, hp]
  | some T => simp [step_of_presented hp, exec_decodeWord, Build.hardware]

theorem step_eq_fault_iff : step s = .fault .inputNotDriven ↔ s.joint.presented = none := by
  cases hp : s.joint.presented with
  | none => simp [step, hp]
  | some T => simp [step_of_presented hp, exec_decodeWord]

/-- What either instruction does from any state: it leaves a result and nothing else (R25, R50, R65). -/
theorem exec_eq_withResult (i : Instr) (s : State) : ∃ y, exec i s = .next (s.withResult y) := by
  cases i with
  | decode h => exact ⟨_, exec_decode h s⟩
  | encode f => exact ⟨_, exec_encode f s⟩

end step

/-! ### Builds -/

section builds
variable {b : Build} {s t : State}

/-- The outcome of a step seen from a larger state. -/
theorem Advance.outcome_map {σ τ : Type} (f : σ → τ) (x : Advance σ) :
    (x.map f).outcome = andThen x.outcome fun u => .next (f u) := by
  rcases x with ⟨after, _ | r⟩ <;> rfl

theorem stepOf_joint (hL : b.latency = 0) (hf : b.form = .joint) : stepOf b s =
    andThen (s.joint.evaluate (jointEval b.nanPolicy)) fun u => .next { s with joint := u } := by
  rw [stepOf, stepOnOf_joint hf, Advance.outcome_map, CodecUnit.stepOn, if_pos hL, CodecUnit.evaluate]

theorem stepOf_decodeUnit (hL : b.latency = 0) (hf : b.form = .split) (ht : s.turn = .decodeUnit) : stepOf b s =
    andThen (s.decodeUnit.evaluate (decodeUnitEval b.nanPolicy)) fun u => .next { s with decodeUnit := u } := by
  rw [stepOf, stepOnOf_decodeUnit hf ht, Advance.outcome_map, CodecUnit.stepOn, if_pos hL, CodecUnit.evaluate]

theorem stepOf_encodeUnit (hL : b.latency = 0) (hf : b.form = .split) (ht : s.turn = .encodeUnit) : stepOf b s =
    andThen (s.encodeUnit.evaluate (encodeUnitEval b.nanPolicy)) fun u => .next { s with encodeUnit := u } := by
  rw [stepOf, stepOnOf_encodeUnit hf ht, Advance.outcome_map, CodecUnit.stepOn, if_pos hL, CodecUnit.evaluate]

theorem andThen_next_eq_fault_iff {σ τ : Type} {o : Host.Outcome σ Fault Refusal} {f : σ → τ} {r : Fault} :
    (andThen o fun s => .next (f s)) = .fault r ↔ o = .fault r := by
  cases o <;> simp [andThen]

/-- R20: a LATENCY = 0 unit answers next with what it computes from held inputs. -/
theorem CodecUnit.evaluate_of_held {ι : Type} {w : Nat} {eval : ι → Option (BitVec w)} {u : CodecUnit ι w}
    {v : BitVec w} (hheld : u.held = true) (hv : eval u.operand = some v) :
    u.evaluate eval = .next { u with result := some v } :=
  CodecUnit.evaluate_eq_next.2 ⟨hheld, v, hv, rfl⟩

/-- R20: a JOINT build's step on a presented transaction gives `CODEC` of its word. -/
theorem stepOf_present (hL : b.latency = 0) (hf : b.form = .joint) (s : State) (T : Transaction) :
    stepOf b (s.present T) = .next ((s.present T).withResult (codec b.nanPolicy (opOf T) (operandOf T))) := by
  rw [stepOf_joint hL hf, CodecUnit.evaluate_of_held (State.present_held s T) (jointEval_drive b.nanPolicy T)]
  rfl

/-- The machine of Step.lean is that of this hardware's build (R7). -/
theorem step_eq_stepOf (s : State) : step s = stepOf Build.hardware s := by
  rw [stepOf_joint rfl rfl, CodecUnit.evaluate_eq_output, output_joint_eq]
  cases hp : s.joint.presented with
  | none => exact step_eq_fault_iff.2 hp
  | some T => exact step_eq_next_iff.2 ⟨T, hp, rfl⟩

end builds

/-! ## The statements about a step -/

/-- Settles O6: the word on driven ports decodes as the presented one does, and a number in range as its word. -/
theorem stepRunsTheDecodedTransaction : Obligations.StepRunsTheDecodedTransaction := by
  refine ⟨fun s T => step_of_presented, step_present_eq_exec, fun s nbits w i hi => ?_⟩
  rw [onlyThirtyThreeBitNumbersDecode] at hi
  split_ifs at hi
  cases hi
  exact step_present_eq_exec s _

/-- Settles O7: a unit has no result exactly where a wire it reads is not driven. -/
theorem stepFaultsExactlyWhenAReadWireIsNotDriven : Obligations.StepFaultsExactlyWhenAReadWireIsNotDriven := by
  have hjoint : ∀ (b : Build) (s : State), b.latency = 0 → b.form = .joint →
      (stepOf b s = .fault .inputNotDriven ↔ (s.joint.held = false ∨ s.joint.operand.Undriven)) := by
    intro b s hL hf
    rw [stepOf_joint hL hf, andThen_next_eq_fault_iff, CodecUnit.evaluate_eq_fault, jointEval_eq_none_iff]
  refine ⟨fun s => ?_, fun b s hL => ⟨hjoint b s hL, fun hf ht => ?_, fun hf ht => ?_⟩⟩
  · rw [step_eq_stepOf, hjoint _ s rfl rfl]
  · rw [stepOf_decodeUnit hL hf ht, andThen_next_eq_fault_iff, CodecUnit.evaluate_eq_fault, decodeUnitEval_eq_none_iff]
  · rw [stepOf_encodeUnit hL hf ht, andThen_next_eq_fault_iff, CodecUnit.evaluate_eq_fault, encodeUnitEval_eq_none_iff]

/-- Settles O8: the inputs are ready exactly where a transaction is presented. -/
theorem aStepIsSafeExactlyWhenItsInputsAreReady : Obligations.AStepIsSafeExactlyWhenItsInputsAreReady := by
  intro s
  have hready : InputsReady s ↔ ∃ T, s.joint.presented = some T := by
    rw [InputsReady, CodecUnit.presented, Option.isSome_iff_exists]
    cases s.joint.held <;> simp
  rw [hready]
  constructor
  · rintro ⟨t, ht⟩
    obtain ⟨T, hT, -⟩ := step_eq_next_iff.1 ht
    exact ⟨T, hT⟩
  · rintro ⟨T, hT⟩
    exact ⟨_, step_eq_next_iff.2 ⟨T, hT, rfl⟩⟩

/-- Settles O9: the ports present the same transaction. -/
theorem ignoredWiresHaveNoEffect : Obligations.IgnoredWiresHaveNoEffect := by
  intro s p hop hread hlow
  have hword : p.word = s.joint.operand.word := by
    rw [JointPorts.word_of_decode hread, JointPorts.word_of_decode (hop ▸ hread), hlow]
  have hp : CodecUnit.presented { s.joint with operand := p } = s.joint.presented := by
    simp only [CodecUnit.presented, hword]
  cases hT : s.joint.presented with
  | none => rw [step_eq_fault_iff.2 hT, step_eq_fault_iff.2 (hp.trans hT), andThen]
  | some T =>
    rw [step_eq_next_iff.2 ⟨T, hT, rfl⟩, andThen]
    exact step_eq_next_iff.2 ⟨T, hp.trans hT, rfl⟩

/-- Settles O10: each instruction's meaning is total. -/
theorem bothInstructionsCompleteOnEveryOperand : Obligations.BothInstructionsCompleteOnEveryOperand :=
  fun s => ⟨fun h => exec_decode h s, fun f => exec_encode f s⟩

/-- Settles O11: either instruction only stores a result. -/
theorem aTransactionChangesOnlyItsResult : Obligations.ATransactionChangesOnlyItsResult := by
  intro i s t ht
  obtain ⟨y, hy⟩ := exec_eq_withResult i s
  obtain rfl : s.withResult y = t := by rw [hy] at ht; cases ht; rfl
  simp

/-- Settles O12: the result stored is no input. -/
theorem evaluatingTwiceIsEvaluatingOnce : Obligations.EvaluatingTwiceIsEvaluatingOnce := by
  intro s t ht
  obtain ⟨T, hT, rfl⟩ := step_eq_next_iff.1 ht
  exact step_eq_next_iff.2 ⟨T, hT, State.withResult_withResult ..⟩

/-- Settles O14: the port carries `CODEC` of the presented transaction, which a step leaves as it is. -/
theorem theResultIsTheOutputPort : Obligations.TheResultIsTheOutputPort := by
  refine ⟨fun s t ht => ?_, fun s hs => ?_⟩
  · obtain ⟨T, hT, rfl⟩ := step_eq_next_iff.1 ht
    simp [output_joint_eq, hT]
  · rw [output_joint_eq, step_eq_fault_iff.1 hs, Option.map_none]

/-- Settles O49: a step of the JOINT unit with LATENCY 0 evaluates what is presented. -/
theorem stepIsTheBuildOfThisHardware : Obligations.StepIsTheBuildOfThisHardware := ⟨rfl, rfl, step_eq_stepOf⟩

/-- Settles O50: each unit reads its driven ports, and `CODEC` is the unit's own function of them. -/
theorem everyFormComputesCodec : Obligations.EveryFormComputesCodec := by
  intro b s hL
  refine ⟨fun hf T => stepOf_present hL hf s T, fun hf ht hheld h high hdrive => ?_, fun hf ht hheld f hdrive => ?_⟩
  · have heval : decodeUnitEval b.nanPolicy s.decodeUnit.operand = some (codec b.nanPolicy 0#1 (high ++ h)) := by
      rw [hdrive, decodeUnitEval_drive, codec_op_zero]
    rw [stepOf_decodeUnit hL hf ht, CodecUnit.evaluate_of_held hheld heval, andThen]
  · have heval : encodeUnitEval b.nanPolicy s.encodeUnit.operand = some (fp32ToFp16 b.nanPolicy f) := by
      rw [hdrive, encodeUnitEval_drive]
    refine ⟨fp32ToFp16 b.nanPolicy f, ?_, by rw [codec, if_neg (by decide)]⟩
    rw [stepOf_encodeUnit hL hf ht, CodecUnit.evaluate_of_held hheld heval, andThen]

end Sys2Proof.Machine
end

section
/-! SUPPORT. What every build keeps: its number of stages, and the units that a step is not a step of
(spec/10_state.md R12, R20, R21; spec/60_exceptions.md R69, R78; spec/70_reset_and_hazards.md R80 to R82). -/

namespace Sys2Proof.Machine

/-! ### Units -/

section units
variable {ι : Type} {w : Nat} {eval : ι → Option (BitVec w)} {L : Nat} {u : CodecUnit ι w}

theorem CodecUnit.evaluateOn_stages : (u.evaluateOn eval).after.stages = u.stages := by
  unfold CodecUnit.evaluateOn
  cases u.held <;> cases eval u.operand <;> rfl

/-- R21: a step of a pipelined unit keeps the number of stages, whatever fault it records. -/
theorem CodecUnit.clockedOn_length (hu : u.stages.length = L) : (u.clockedOn eval L).after.stages.length = L := by
  obtain ⟨-, -, h⟩ | ⟨-, -, h⟩ | ⟨level, -, -, h⟩ := CodecUnit.clockedOn_cases (u := u) (eval := eval) (L := L)
  · simp [h, hu]
  · simpa [h] using CodecUnit.risingEdgeOn_length hu
  · simp [h, hu]

/-- R21: a step of any unit keeps the number of stages. -/
theorem CodecUnit.stepOn_length (hu : u.stages.length = L) : (u.stepOn eval L).after.stages.length = L := by
  unfold CodecUnit.stepOn
  split_ifs
  · rw [CodecUnit.evaluateOn_stages, hu]
  · exact CodecUnit.clockedOn_length hu

@[simp] theorem CodecUnit.undriven_stages (inputs : ι) (stages : List (Stage w)) :
    (CodecUnit.undriven inputs stages).stages = stages := rfl

/-- R21: `out_valid` is a stage's valid bit, or 0 where there is no stage. -/
theorem CodecUnit.outValid_eq_false (hv : ∀ g ∈ u.stages, g.v = false) : u.outValid = false := by
  unfold CodecUnit.outValid
  cases hlast : u.stages.getLast? with
  | none => rfl
  | some g => exact hv g (List.mem_of_getLast? hlast)

/-- R81: after reset every valid bit of a unit and its `out_valid` are 0. -/
theorem CodecUnit.undriven_resetStages_invalid (inputs : ι) (L : Nat) :
    (∀ g ∈ (CodecUnit.undriven inputs (resetStages w L)).stages, g.v = false) ∧
      (CodecUnit.undriven inputs (resetStages w L)).outValid = false :=
  have hinvalid := fun _ hg => resetStages_invalid hg
  ⟨hinvalid, CodecUnit.outValid_eq_false hinvalid⟩

end units

/-! ### States -/

section states
variable {b : Build} {s : State}

theorem State.wf_iff : s.wf b = true ↔ s.joint.stages.length = b.latency ∧ s.decodeUnit.stages.length = b.latency ∧
    s.encodeUnit.stages.length = b.latency := by
  simp [State.wf, and_assoc]

theorem State.wf_resetOf (b : Build) : (State.resetOf b).wf b = true := State.wf_iff.2 (by simp [State.resetOf])

theorem State.wf_powerOnOf (b : Build) : (State.powerOnOf b).wf b = true := State.wf_iff.2 (by simp [State.powerOnOf])

/-- All that a step of a build can do to the state: a step of the JOINT unit, or of the SPLIT unit that the host
drives. -/
theorem stepOnOf_cases (b : Build) (s : State) :
    (b.form = .joint ∧ (stepOnOf b s).after =
      { s with joint := (s.joint.stepOn (jointEval b.nanPolicy) b.latency).after }) ∨
    (b.form = .split ∧ s.turn = .decodeUnit ∧ (stepOnOf b s).after =
      { s with decodeUnit := (s.decodeUnit.stepOn (decodeUnitEval b.nanPolicy) b.latency).after }) ∨
    (b.form = .split ∧ s.turn = .encodeUnit ∧ (stepOnOf b s).after =
      { s with encodeUnit := (s.encodeUnit.stepOn (encodeUnitEval b.nanPolicy) b.latency).after }) := by
  cases hf : b.form with
  | joint => exact .inl ⟨rfl, by rw [stepOnOf_joint hf, Advance.map_after]⟩
  | split =>
    obtain ht | ht : s.turn = .decodeUnit ∨ s.turn = .encodeUnit := by cases s.turn <;> simp
    · exact .inr (.inl ⟨rfl, ht, by rw [stepOnOf_decodeUnit hf ht, Advance.map_after]⟩)
    · exact .inr (.inr ⟨rfl, ht, by rw [stepOnOf_encodeUnit hf ht, Advance.map_after]⟩)

theorem stepOf_eq_next_iff {t : State} :
    stepOf b s = .next t ↔ (stepOnOf b s).fault = none ∧ (stepOnOf b s).after = t :=
  Advance.outcome_eq_next

/-- R21: a step of a build leaves each unit its stages. -/
theorem State.wf_stepOnOf (hs : s.wf b = true) : (stepOnOf b s).after.wf b = true := by
  rw [State.wf_iff] at hs ⊢
  obtain ⟨hjoint, hdecode, hencode⟩ := hs
  obtain ⟨-, h⟩ | ⟨-, -, h⟩ | ⟨-, -, h⟩ := stepOnOf_cases b s <;> rw [h]
  · exact ⟨CodecUnit.stepOn_length hjoint, hdecode, hencode⟩
  · exact ⟨hjoint, CodecUnit.stepOn_length hdecode, hencode⟩
  · exact ⟨hjoint, hdecode, CodecUnit.stepOn_length hencode⟩

end states

/-! ## The statements about reset and invariants -/

/-- Settles O17: a step leaves the stages as they are and stores `CODEC` of the transaction it read. -/
theorem stepKeepsTheInvariant : Obligations.StepKeepsTheInvariant := by
  rintro s t ⟨hwf, -⟩ ht
  obtain ⟨T, -, rfl⟩ := step_eq_next_iff.1 ht
  refine ⟨hwf, fun y hy => ⟨T, ?_⟩⟩
  rw [State.withResult_result, Option.some_inj] at hy
  exact hy.symm

/-- Settles O19: what a step answers is what the machine goes on from. -/
theorem everyBuildKeepsItsStages : Obligations.EveryBuildKeepsItsStages := by
  refine fun b s hs => ⟨fun t ht => ?_, State.wf_stepOnOf hs⟩
  rw [← (stepOf_eq_next_iff.1 ht).2]
  exact State.wf_stepOnOf hs

/-- Settles O15: with LATENCY 0 the lists of stages are empty, and no wire is driven. -/
theorem resetLeavesNothingToReset : Obligations.ResetLeavesNothingToReset :=
  ⟨rfl, rfl, rfl, rfl, rfl, rfl, rfl⟩

/-- Settles O16: reset holds no result. -/
theorem resetHasTheInvariant : Obligations.ResetHasTheInvariant := ⟨State.wf_resetOf _, fun _ hy => nomatch hy⟩

/-- Settles O18: the stages of a reset unit are invalid, and so is the last of them. -/
theorem everyBuildStartsWithItsStages : Obligations.EveryBuildStartsWithItsStages := fun b =>
  ⟨State.wf_resetOf b, State.wf_powerOnOf b, CodecUnit.undriven_resetStages_invalid _ _,
    CodecUnit.undriven_resetStages_invalid _ _, CodecUnit.undriven_resetStages_invalid _ _⟩

/-- Settles O20: the outcome of a step has no refusal. -/
theorem theOnlyStopIsAnInputNotDriven : Obligations.TheOnlyStopIsAnInputNotDriven := fun _ _ => Advance.outcome_total

/-- Settles O51: each kind of step replaces one unit. -/
theorem aUnitStepLeavesTheOtherUnitsAlone : Obligations.AUnitStepLeavesTheOtherUnitsAlone := by
  intro b s t ht
  obtain rfl : (stepOnOf b s).after = t := ht.elim (fun h => (stepOf_eq_next_iff.1 h).2) id
  obtain ⟨hf, h⟩ | ⟨hf, hturn, h⟩ | ⟨hf, hturn, h⟩ := stepOnOf_cases b s
  · simp [h, hf]
  · simp [h, hf, hturn]
  · simp [h, hf, hturn]

end Sys2Proof.Machine
end

section
/-! SUPPORT. Pipelined units and builds: what an edge and a level of `clk` read, and what they do to the stages
(spec/10_state.md R19, R21; spec/60_exceptions.md R72; spec/70_reset_and_hazards.md R81). -/

namespace Sys2Proof.Machine

section units
variable {ι : Type} {w : Nat} {eval : ι → Option (BitVec w)} {L : Nat} {u t : CodecUnit ι w}

/-- R72: what goes into `stage[0]` has a fault exactly where `in_valid`, or with `in_valid` 1 the operand, is not
driven. -/
theorem CodecUnit.captured_fault_eq_some_iff : (u.captured eval).fault = some .inputNotDriven ↔
    u.inValid.read = none ∨ (u.inValid.read = some 1#1 ∧ eval u.operand = none) := by
  cases hv : u.inValid.read with
  | none => simp [CodecUnit.captured, hv]
  | some b =>
    rcases BitVec.eq_zero_or_eq_one b with rfl | rfl
    · simp [CodecUnit.captured_of_invalid hv]
    · cases he : eval u.operand with
      | none => simp [CodecUnit.captured_of_undriven hv he]
      | some v => simp [CodecUnit.captured_of_result hv he]

/-- R72: when a rising edge faults. -/
theorem CodecUnit.risingEdge_eq_fault_iff : u.risingEdge eval L = .fault .inputNotDriven ↔
    (u.rst.read = none ∨ (u.rst.read = some 0#1 ∧
      (u.inValid.read = none ∨ (u.inValid.read = some 1#1 ∧ eval u.operand = none)))) := by
  rw [CodecUnit.risingEdge, Advance.outcome_eq_fault, ← CodecUnit.captured_fault_eq_some_iff]
  obtain ⟨hr, h⟩ | ⟨hr, h⟩ | ⟨hr, h⟩ := CodecUnit.risingEdgeOn_cases (u := u) (eval := eval) (L := L) <;> simp [h, hr]

/-- R72: when a step of a pipelined unit faults. -/
theorem CodecUnit.clocked_eq_fault_iff : u.clocked eval L = .fault .inputNotDriven ↔
    (u.clk.read = none ∨ (u.clk.read = some 1#1 ∧ u.clkWas = false ∧
      u.risingEdge eval L = .fault .inputNotDriven)) := by
  rw [CodecUnit.clocked, CodecUnit.risingEdge, Advance.outcome_eq_fault, Advance.outcome_eq_fault]
  obtain ⟨hc, h, -⟩ | ⟨hc, hwas, h⟩ | ⟨level, hc, hlevel, h⟩ :=
    CodecUnit.clockedOn_cases (u := u) (eval := eval) (L := L)
  · simp [h, hc]
  · simp [h, hc, hwas]
  · have hno : ¬(level = 1#1 ∧ u.clkWas = false ∧ (u.risingEdgeOn eval L).fault = some .inputNotDriven) :=
      fun ⟨h1, h2, _⟩ => hlevel ⟨h1, h2⟩
    simpa [h, hc] using hno

/-- A rising edge that answers next leaves what it leaves with or without a fault. -/
theorem CodecUnit.risingEdge_eq_next_iff :
    u.risingEdge eval L = .next t ↔ (u.risingEdgeOn eval L).fault = none ∧ (u.risingEdgeOn eval L).after = t :=
  Advance.outcome_eq_next

/-- R81: an edge with `rst` = 1 leaves every valid bit 0. -/
theorem CodecUnit.risingEdgeOn_reset_invalid (hr : u.rst.read = some 1#1) :
    ∀ g ∈ (u.risingEdgeOn eval L).after.stages, g.v = false := by
  rw [CodecUnit.risingEdgeOn_reset hr]
  exact fun _ => clearStages_invalid

/-- R21: an edge with `rst` = 0 at which nothing faults. -/
theorem CodecUnit.risingEdge_shift (hr : u.rst.read = some 0#1) (hfault : (u.captured eval).fault = none) :
    u.risingEdge eval L = .next (u.risingEdgeOn eval L).after := by
  rw [CodecUnit.risingEdge_eq_next_iff, CodecUnit.risingEdgeOn_shift hr]
  exact ⟨hfault, rfl⟩

/-! ### A level of `clk` -/

/-- R21: a level that rises takes the rising edge and is noted. -/
theorem CodecUnit.clockedOn_of_rise (hc : u.clk.read = some 1#1) (hwas : u.clkWas = false) :
    u.clockedOn eval L = (u.risingEdgeOn eval L).map fun u' => { u' with clkWas := true } := by
  simp [CodecUnit.clockedOn, hc, hwas]

/-- R19: a level that does not rise is noted, and nothing else happens. -/
theorem CodecUnit.clockedOn_of_no_rise {level : BitVec 1} (hc : u.clk.read = some level)
    (hno : ¬(level = 1#1 ∧ u.clkWas = false)) :
    u.clockedOn eval L = { after := { u with clkWas := level == 1#1 }, fault := none } := by
  simp [CodecUnit.clockedOn, hc, hno]

theorem CodecUnit.risingEdgeOn_clk : (u.risingEdgeOn eval L).after.clk = u.clk := by
  obtain ⟨-, h⟩ | ⟨-, h⟩ | ⟨-, h⟩ := CodecUnit.risingEdgeOn_cases (u := u) (eval := eval) (L := L) <;> rw [h]

/-- A step at which `clk` is driven leaves `clk`, and notes its level. -/
theorem CodecUnit.clockedOn_notes_level {level : BitVec 1} (hc : u.clk.read = some level) :
    (u.clockedOn eval L).after.clk = u.clk ∧ (u.clockedOn eval L).after.clkWas = (level == 1#1) := by
  by_cases hrise : level = 1#1 ∧ u.clkWas = false
  · obtain ⟨rfl, hwas⟩ := hrise
    rw [CodecUnit.clockedOn_of_rise hc hwas]
    exact ⟨CodecUnit.risingEdgeOn_clk, rfl⟩
  · rw [CodecUnit.clockedOn_of_no_rise hc hrise]
    exact ⟨rfl, rfl⟩

/-- A level that has been noted is no rising edge: a step at it changes nothing. -/
theorem CodecUnit.clockedOn_of_noted {level : BitVec 1} (hc : u.clk.read = some level)
    (hwas : u.clkWas = (level == 1#1)) : u.clockedOn eval L = { after := u, fault := none } := by
  rw [CodecUnit.clockedOn_of_no_rise hc fun ⟨h1, h0⟩ => by simp [hwas, h1] at h0, ← hwas]

/-- R19: a step that records no fault, and at which `clk` was high before or is low, changes nothing but the level
noted. -/
theorem CodecUnit.clockedOn_after_of_no_rise (hfault : (u.clockedOn eval L).fault = none)
    (hno : u.clkWas = true ∨ u.clk.read = some 0#1) :
    (u.clockedOn eval L).after = { u with clkWas := (u.clockedOn eval L).after.clkWas } := by
  obtain ⟨-, h, -⟩ | ⟨hc, hwas, -⟩ | ⟨level, -, -, h⟩ := CodecUnit.clockedOn_cases (u := u) (eval := eval) (L := L)
  · simp [h] at hfault
  · simp [hc, hwas] at hno
  · rw [h]

/-! ### After a reset -/

/-- R81: where a cycle with `rst` = 0 has `in_valid` 0, it puts no valid entry in. -/
theorem CodecUnit.risingEdgeOn_invalid (hr : u.rst.read = some 0#1) (hv : u.inValid.read = some 0#1)
    (hu : ∀ g ∈ u.stages, g.v = false) : ∀ g ∈ (u.risingEdgeOn eval L).after.stages, g.v = false := by
  rw [CodecUnit.risingEdgeOn_shift hr, CodecUnit.captured_of_invalid hv]
  intro g hg
  rcases List.mem_cons.1 (List.mem_of_mem_take hg) with rfl | hg
  · rfl
  · exact hu g hg

/-- R81: while `in_valid` is 0 no stage becomes valid. -/
theorem CodecUnit.cyclesOn_invalid {cs : List (CycleInputs ι)} (hr : ∀ c ∈ cs, c.rst.read = some 0#1)
    (hv : ∀ c ∈ cs, c.inValid.read = some 0#1) (hu : ∀ g ∈ u.stages, g.v = false) :
    ∀ g ∈ (u.cyclesOn eval L cs).stages, g.v = false := by
  induction cs generalizing u with
  | nil => exact hu
  | cons c cs ih =>
    obtain ⟨hrc, hrcs⟩ := List.forall_mem_cons.1 hr
    obtain ⟨hvc, hvcs⟩ := List.forall_mem_cons.1 hv
    exact ih hrcs hvcs (CodecUnit.risingEdgeOn_invalid (u := u.withInputs c) hrc hvc hu)

/-- R81: for fewer than L edges the last stage is one that was there before them. -/
theorem CodecUnit.cyclesOn_outValid_of_few {cs : List (CycleInputs ι)} (hlen : u.stages.length = L)
    (hr : ∀ c ∈ cs, c.rst.read = some 0#1) (hcs : cs.length < L) (hu : ∀ g ∈ u.stages, g.v = false) :
    (u.cyclesOn eval L cs).outValid = false := by
  obtain ⟨k, hk⟩ := Nat.exists_eq_add_of_lt hcs
  have hlast : (u.cyclesOn eval L cs).stages[L - 1]? = u.stages[k]? := by
    rw [show L - 1 = k + cs.length by omega]
    exact CodecUnit.cyclesOn_getElem? hr (by omega)
  have hg : u.stages[k]? = some u.stages[k] := List.getElem?_eq_getElem (by omega)
  rw [(CodecUnit.ports_of_last_stage (eval := eval) (by omega) (CodecUnit.cyclesOn_length hlen) (hlast.trans hg)).1]
  exact hu _ (List.getElem_mem _)

/-- Cycles that record no fault leave what they leave with or without one. -/
theorem CodecUnit.cyclesOn_eq_of_cycles {cs : List (CycleInputs ι)} (h : u.cycles eval L cs = .next t) :
    u.cyclesOn eval L cs = t := by
  induction cs generalizing u with
  | nil => cases h; rfl
  | cons c cs ih =>
    rw [CodecUnit.cycles_cons, andThen_eq_next] at h
    obtain ⟨u', hc, hcs⟩ := h
    rw [CodecUnit.cycle_eq, Advance.outcome_eq_next] at hc
    rw [CodecUnit.cyclesOn_cons, hc.2, ih hcs]

end units

/-! ### Builds -/

section builds
variable {b : Build} {s : State}

theorem CodecUnit.stepOn_of_pos {ι : Type} {w : Nat} (eval : ι → Option (BitVec w)) {L : Nat} (hL : 0 < L)
    (u : CodecUnit ι w) : u.stepOn eval L = u.clockedOn eval L := if_neg hL.ne'

/-- R19: the step of a pipelined JOINT build is that of its unit. -/
theorem stepOnOf_joint_clocked (hL : 0 < b.latency) (hf : b.form = .joint) : stepOnOf b s =
    (s.joint.clockedOn (jointEval b.nanPolicy) b.latency).map fun u => { s with joint := u } := by
  rw [stepOnOf_joint hf, CodecUnit.stepOn_of_pos _ hL]

/-- R19: the step of a pipelined SPLIT build is that of the decode unit while the host drives it. -/
theorem stepOnOf_decodeUnit_clocked (hL : 0 < b.latency) (hf : b.form = .split) (ht : s.turn = .decodeUnit) :
    stepOnOf b s = (s.decodeUnit.clockedOn (decodeUnitEval b.nanPolicy) b.latency).map fun u =>
      { s with decodeUnit := u } := by
  rw [stepOnOf_decodeUnit hf ht, CodecUnit.stepOn_of_pos _ hL]

/-- R19: the step of a pipelined SPLIT build is that of the encode unit while the host drives it. -/
theorem stepOnOf_encodeUnit_clocked (hL : 0 < b.latency) (hf : b.form = .split) (ht : s.turn = .encodeUnit) :
    stepOnOf b s = (s.encodeUnit.clockedOn (encodeUnitEval b.nanPolicy) b.latency).map fun u =>
      { s with encodeUnit := u } := by
  rw [stepOnOf_encodeUnit hf ht, CodecUnit.stepOn_of_pos _ hL]

end builds

/-! ## The statements about pipelined builds -/

/-- Settles O52: a unit reads its wires, an edge `rst` and what follows from it, a step `clk` and its edge. -/
theorem anEdgeReadsTheOperandOnlyWhenValid : Obligations.AnEdgeReadsTheOperandOnlyWhenValid :=
  ⟨fun policy => ⟨jointEval_eq_none_iff policy, decodeUnitEval_eq_none_iff policy, encodeUnitEval_eq_none_iff policy⟩,
    fun _ _ _ _ _ => ⟨CodecUnit.risingEdge_eq_fault_iff, CodecUnit.clocked_eq_fault_iff⟩⟩

/-- Settles O53: each kind of edge, and what it captures in `stage[0]`. -/
theorem everyStageAdvancesAtEveryEdge : Obligations.EveryStageAdvancesAtEveryEdge := by
  rintro ι w L eval u t hL hu rfl
  have hlen : (u.risingEdgeOn eval L).after.stages.length = L := CodecUnit.risingEdgeOn_length hu
  refine ⟨hlen, fun t' ht' => (CodecUnit.risingEdge_eq_next_iff.1 ht').2.symm,
    CodecUnit.risingEdgeOn_reset_invalid, fun hr => ?_, ?_⟩
  · have hzero := CodecUnit.risingEdgeOn_getElem?_zero (eval := eval) hr hL
    refine ⟨fun k => CodecUnit.risingEdgeOn_getElem?_succ hr, fun hv v he => ?_, fun hv he => ?_, fun hv => ?_⟩
    · rw [CodecUnit.captured_of_result hv he] at hzero
      exact ⟨CodecUnit.risingEdge_shift hr (by rw [CodecUnit.captured_of_result hv he]), hzero⟩
    · rw [CodecUnit.captured_of_undriven hv he] at hzero
      exact ⟨_, hzero, rfl, rfl, rfl⟩
    · rw [CodecUnit.captured_of_invalid hv] at hzero
      exact ⟨CodecUnit.risingEdge_shift hr (by rw [CodecUnit.captured_of_invalid hv]), _, hzero, rfl, rfl⟩
  · have hlast := List.getElem?_eq_getElem (l := (u.risingEdgeOn eval L).after.stages) (i := L - 1) (by omega)
    exact ⟨_, hlast, CodecUnit.ports_of_last_stage hL hlen hlast⟩

/-- Settles O54: a unit's step notes the level of `clk` and takes the edge where it rises; a build's step is its
unit's. -/
theorem stateChangesOnlyAtARisingEdge : Obligations.StateChangesOnlyAtARisingEdge := by
  refine ⟨fun b s t hL ht => ?_, fun ι w L eval u level hc => ?_, fun b s hL => ⟨rfl, stepOnOf_joint_clocked hL,
    stepOnOf_decodeUnit_clocked hL, stepOnOf_encodeUnit_clocked hL⟩⟩
  · obtain ⟨hfault, rfl⟩ := stepOf_eq_next_iff.1 ht
    refine ⟨fun hf hno => ?_, fun hf hturn hno => ?_, fun hf hturn hno => ?_⟩
    · rw [stepOnOf_joint_clocked hL hf] at hfault ⊢
      simp only [Advance.map_after, ← CodecUnit.clockedOn_after_of_no_rise hfault hno]
    · rw [stepOnOf_decodeUnit_clocked hL hf hturn] at hfault ⊢
      simp only [Advance.map_after, ← CodecUnit.clockedOn_after_of_no_rise hfault hno]
    · rw [stepOnOf_encodeUnit_clocked hL hf hturn] at hfault ⊢
      simp only [Advance.map_after, ← CodecUnit.clockedOn_after_of_no_rise hfault hno]
  · obtain ⟨hclk, hwas⟩ := CodecUnit.clockedOn_notes_level (eval := eval) (L := L) hc
    refine ⟨hwas, CodecUnit.clockedOn_of_noted (hclk ▸ hc) hwas, CodecUnit.clockedOn_of_no_rise hc, ?_⟩
    rintro rfl hlow
    exact CodecUnit.clockedOn_of_rise hc hlow

/-- Settles O56: the last of fewer than L further edges shows a cleared stage, and without `in_valid` no stage becomes
valid. -/
theorem resetDiscardsWhatIsInFlight : Obligations.ResetDiscardsWhatIsInFlight := by
  intro ι w L eval u hL hu hr
  have hinvalid := CodecUnit.risingEdgeOn_reset_invalid (eval := eval) (L := L) hr
  have hlen : (u.risingEdgeOn eval L).after.stages.length = L := CodecUnit.risingEdgeOn_length hu
  have hfault : (u.risingEdgeOn eval L).fault = none := by rw [CodecUnit.risingEdgeOn_reset hr]
  refine ⟨(u.risingEdgeOn eval L).after, CodecUnit.risingEdge_eq_next_iff.2 ⟨hfault, rfl⟩, hlen,
    CodecUnit.outValid_eq_false hinvalid, hinvalid, fun later t' ht' hrst hquiet => ?_⟩
  obtain rfl := ht'.elim CodecUnit.cyclesOn_eq_of_cycles id
  rcases hquiet with hfew | hv
  · exact CodecUnit.cyclesOn_outValid_of_few hlen hrst hfew hinvalid
  · exact CodecUnit.outValid_eq_false (CodecUnit.cyclesOn_invalid hrst hv hinvalid)

end Sys2Proof.Machine
end

section
/-! SUPPORT. More about DECODE (spec/40_decode_fp16_to_fp32.md R44, R53), and the values of the landmark patterns
(spec/30_encoding.md R31, R33). -/

namespace Sys2Proof.Machine

/-! ### DECODE -/

section decode
variable {h : Half}

/-- R31: a half with exponent field and fraction 0 has its lower fifteen bits 0. -/
theorem magnitudeBits16_eq_zero (he : exp16 h = 0#5) (hm : frac16 h = 0#10) : h.extractLsb' 0 15 = 0#15 :=
  BitVec.eq_of_toNat_eq (by rw [toNat_magnitudeBits16, he, hm]; rfl)

/-- R44: the exponent field of a subnormal's result does not wrap. -/
theorem exp32_fp16ToFp32_of_subnormal (policy : NanPolicy) (he : exp16 h = 0#5) (hm : frac16 h ≠ 0#10) :
    (exp32 (fp16ToFp32 policy h)).toNat = msbIndex (frac16 h).toNat + 103 := by
  obtain ⟨-, -, hp⟩ := msbIndex_frac16 hm
  rw [fp16ToFp32_of_subnormal policy he hm, exp32_pack32, BitVec.toNat_ofNat]
  omega

/-- R33: an exponent field between 0 and 255 is a normal's. -/
theorem class32_of_normal {f : Single} (hlow : 0 < (exp32 f).toNat) (hhigh : (exp32 f).toNat < 255) :
    class32 f = .normal := by
  have h0 : exp32 f ≠ 0#8 := fun h => by simp [h] at hlow
  have h255 : exp32 f ≠ 255#8 := fun h => by simp [h] at hhigh
  rw [class32, if_neg h0, if_neg h255]

/-- R53: the exponent field of a finite nonzero half's result. -/
theorem exp32_fp16ToFp32_bounds (policy : NanPolicy) (hfin : exp16 h ≠ 31#5) (h0 : h.extractLsb' 0 15 ≠ 0#15) :
    103 ≤ (exp32 (fp16ToFp32 policy h)).toNat ∧ (exp32 (fp16ToFp32 policy h)).toNat ≤ 142 := by
  by_cases he : exp16 h = 0#5
  · have hm : frac16 h ≠ 0#10 := fun hm => h0 (magnitudeBits16_eq_zero he hm)
    obtain ⟨-, -, hp⟩ := msbIndex_frac16 hm
    rw [exp32_fp16ToFp32_of_subnormal policy he hm]
    omega
  · have he0 : (exp16 h).toNat ≠ 0 := fun hz => he (BitVec.eq_of_toNat_eq hz)
    have he31 : (exp16 h).toNat ≠ 31 := fun hz => hfin (BitVec.eq_of_toNat_eq hz)
    have := (exp16 h).isLt
    rw [exp32_fp16ToFp32_of_normal policy he hfin]
    omega

end decode

/-- Settles O22: p is the highest set bit, and the value is kept. -/
theorem decodeOfASubnormal : Obligations.DecodeOfASubnormal := by
  intro h s he hm
  obtain ⟨hlow, hhigh, hp⟩ := msbIndex_frac16 hm
  refine ⟨_, hp, hlow, hhigh, (normalized_significand hp hlow hhigh).1, _, exec_decode h s, ?_, ?_⟩
  · exact fp16ToFp32_of_subnormal _ he hm
  · rw [value32_fp16ToFp32_of_subnormal _ he hm, value16_eq_number_iff]
    exact ⟨by rw [he]; decide, rfl, magnitude16_of_subnormal (by rw [he]; rfl) rfl⟩

/-- Settles O29: a subnormal's highest set bit is at most 9, a normal's exponent field 1..30. -/
theorem decodeNeverLeavesTheNormalRange : Obligations.DecodeNeverLeavesTheNormalRange := by
  intro policy h hfin h0
  obtain ⟨hlow, hhigh⟩ := exp32_fp16ToFp32_bounds policy (by simpa [isFinite16] using hfin) h0
  exact ⟨class32_of_normal (by omega) (by omega), hlow, hhigh⟩

/-! ### Landmarks -/

/-- The value of a half from the numbers in its fields (R31). -/
theorem value16_of_fields {h : Half} {neg : Bool} {x : ℚ} (e m : Nat)
    (hfields : (sign16 h == 1#1) = neg ∧ (exp16 h).toNat = e ∧ (frac16 h).toNat = m) (he : e ≠ 31)
    (hx : (subnormalUnits 10 e m : ℚ) * 2 ^ (-24 : ℤ) = x) : value16 h = .number neg x := by
  obtain ⟨hs, rfl, rfl⟩ := hfields
  exact (value16_eq_number_iff h neg x).2 ⟨fun h31 => he (by rw [h31]; rfl), hs, (magnitude16_eq_units h).trans hx⟩

/-- The value of a single from the numbers in its fields (R33). -/
theorem value32_of_fields {f : Single} {neg : Bool} {x : ℚ} (E M : Nat)
    (hfields : (sign32 f == 1#1) = neg ∧ (exp32 f).toNat = E ∧ (frac32 f).toNat = M) (hE : E ≠ 255)
    (hx : (subnormalUnits 23 E M : ℚ) * 2 ^ (-149 : ℤ) = x) : value32 f = .number neg x := by
  obtain ⟨hs, rfl, rfl⟩ := hfields
  exact (value32_eq_number_iff f neg x).2 ⟨fun h255 => hE (by rw [h255]; rfl), hs, (magnitude32_eq_units f).trans hx⟩

/-- Settles O47: each pattern's fields, and the number they stand for. -/
theorem landmarksOfBinary16 : Obligations.LandmarksOfBinary16 :=
  ⟨value16_of_fields 0 1 (by decide) (by decide) (by norm_num [subnormalUnits]),
    value16_of_fields 0 1023 (by decide) (by decide) (by norm_num [subnormalUnits]),
    value16_of_fields 1 0 (by decide) (by decide) (by norm_num [subnormalUnits]),
    value16_of_fields 15 0 (by decide) (by decide) (by norm_num [subnormalUnits]),
    value16_of_fields 30 1023 (by decide) (by decide) (by norm_num [subnormalUnits]),
    value16_of_fields 0 0 (by decide) (by decide) (by norm_num [subnormalUnits]),
    (value16_eq_infinity_iff _ _).2 (by decide)⟩

/-- Settles O48: each pattern's fields, and the number they stand for. -/
theorem landmarksOfBinary32 : Obligations.LandmarksOfBinary32 :=
  ⟨value32_of_fields 127 0 (by decide) (by decide) (by norm_num [subnormalUnits]),
    value32_of_fields 103 0 (by decide) (by decide) (by norm_num [subnormalUnits]),
    value32_of_fields 102 0 (by decide) (by decide) (by norm_num [subnormalUnits]),
    value32_of_fields 113 0 (by decide) (by decide) (by norm_num [subnormalUnits]),
    value32_of_fields 142 0x7FE000 (by decide) (by decide) (by norm_num [subnormalUnits]),
    value32_of_fields 142 0x7FF000 (by decide) (by decide) (by norm_num [subnormalUnits]),
    (value32_eq_infinity_iff _ _).2 (by decide), (value32_eq_nan_iff _).2 (by decide)⟩

end Sys2Proof.Machine
end

section
/-! SUPPORT. ENCODE among the values of all halves (spec/41_encode_fp32_to_fp16.md R58, R67, R68, R70): a pattern that
is no NaN is a sign and magnitude bits, the infinity being the greatest of them, and the order of values is that of
these two. -/

namespace Sys2Proof.Machine

/-! ### Magnitude bits and classes -/

theorem magnitudeOfBits_zero : magnitudeOfBits 0 = 0 := by
  rw [magnitudeOfBits, unitsOfBits, Nat.zero_div, Nat.zero_mod, subnormalUnits_zero, Nat.cast_zero, zero_mul]

theorem magnitude16_nonneg (h : Half) : 0 ≤ magnitude16 h := by rw [magnitude16_eq_units]; positivity

theorem magnitude32_nonneg (f : Single) : 0 ≤ magnitude32 f := by rw [magnitude32_eq_units]; positivity

theorem isFinite16_iff_bits (h : Half) : isFinite16 h = true ↔ (h.extractLsb' 0 15).toNat < 0x7C00 := by
  rw [isFinite16, bne_iff_ne]
  refine ⟨magnitudeBits16_lt, fun hlt he => ?_⟩
  rw [toNat_magnitudeBits16, he, BitVec.toNat_ofNat] at hlt
  omega

/-- R31: the magnitude bits of the infinity. -/
theorem magnitudeBits16_of_infinity {h : Half} (he : exp16 h = 31#5) (hm : frac16 h = 0#10) :
    (h.extractLsb' 0 15).toNat = 0x7C00 := by
  rw [toNat_magnitudeBits16, he, hm]
  rfl

theorem class16_eq_infinity_iff (h : Half) : class16 h = .infinity ↔ exp16 h = 31#5 ∧ frac16 h = 0#10 := by
  unfold class16
  split_ifs <;> simp_all

/-- R31: the infinity has magnitude bits 0x7C00, and no other pattern has. -/
theorem class16_eq_infinity_iff_bits (h : Half) : class16 h = .infinity ↔ (h.extractLsb' 0 15).toNat = 0x7C00 := by
  rw [class16_eq_infinity_iff]
  refine ⟨fun ⟨he, hm⟩ => magnitudeBits16_of_infinity he hm, fun hbits => ?_⟩
  have := (exp16 h).isLt
  have := (frac16 h).isLt
  rw [toNat_magnitudeBits16] at hbits
  exact ⟨BitVec.eq_of_toNat_eq (by rw [BitVec.toNat_ofNat]; omega),
    BitVec.eq_of_toNat_eq (by rw [BitVec.toNat_ofNat]; omega)⟩

theorem toNat_magnitudeBits32 (f : Single) :
    (f.extractLsb' 0 31).toNat = (exp32 f).toNat * 2 ^ 23 + (frac32 f).toNat := by
  simp only [exp32, frac32, BitVec.extractLsb'_toNat, Nat.shiftRight_eq_div_pow]
  omega

/-- A finite single has magnitude bits below those of the infinity. -/
theorem magnitudeBits32_lt {f : Single} (hf : isFinite32 f = true) : (f.extractLsb' 0 31).toNat < 0x7F800000 := by
  have hE : (exp32 f).toNat ≠ 255 := fun h => (isFinite32_iff f).1 hf (BitVec.eq_of_toNat_eq h)
  have := (exp32 f).isLt
  have := (frac32 f).isLt
  rw [toNat_magnitudeBits32]
  omega

/-- R33: the magnitude bits of the infinity. -/
theorem magnitudeBits32_of_infinity {f : Single} (hE : exp32 f = 255#8) (hM : frac32 f = 0#23) :
    (f.extractLsb' 0 31).toNat = 0x7F800000 := by
  rw [toNat_magnitudeBits32, hE, hM]
  rfl

/-! ### What ENCODE gives outside NaN -/

section encode
variable (policy : NanPolicy) {f g : Single}

/-- The magnitude bits of a finite single's encoding. -/
theorem magnitudeBits_fp32ToFp16_of_finite (hf : isFinite32 f = true) :
    ((fp32ToFp16 policy f).extractLsb' 0 15).toNat = encodedMagnitude f := by
  rw [fp32ToFp16_of_finite policy hf, magnitudeBits_append, toNat_encodedMagnitude]

/-- R55: the magnitude bits of an infinity's encoding. -/
theorem magnitudeBits_fp32ToFp16_of_infinity (hE : exp32 f = 255#8) (hM : frac32 f = 0#23) :
    ((fp32ToFp16 policy f).extractLsb' 0 15).toNat = 0x7C00 := by
  rw [fp32ToFp16_of_infinity policy hE hM]
  exact magnitudeBits16_of_infinity (exp16_pack16 ..) (frac16_pack16 ..)

/-- R68: outside NaN, the magnitude bits of an encoding are at most those of the infinity. -/
theorem magnitudeBits_fp32ToFp16_le (hn : isNaN32 f = false) :
    ((fp32ToFp16 policy f).extractLsb' 0 15).toNat ≤ 0x7C00 := by
  obtain hf | ⟨hE, hM⟩ := (isNaN32_eq_false_iff f).1 hn
  · exact (magnitudeBits_fp32ToFp16_of_finite policy hf).trans_le (encodedMagnitude_le f)
  · exact (magnitudeBits_fp32ToFp16_of_infinity policy hE hM).le

/-- R68: only a NaN encodes to a NaN. -/
theorem isNaN16_fp32ToFp16 (hn : isNaN32 f = false) : isNaN16 (fp32ToFp16 policy f) = false := by
  have hle := magnitudeBits_fp32ToFp16_le policy hn
  rw [isNaN16_eq_false_iff]
  intro he
  rw [toNat_magnitudeBits16, he, BitVec.toNat_ofNat] at hle
  exact BitVec.eq_of_toNat_eq (by rw [BitVec.toNat_ofNat]; omega)

/-- R60: a finite single gives an infinity exactly from 65520 on. -/
theorem class16_fp32ToFp16_eq_infinity_iff (hf : isFinite32 f = true) :
    class16 (fp32ToFp16 policy f) = .infinity ↔ 65520 ≤ magnitude32 f := by
  rw [class16_eq_infinity_iff_bits, magnitudeBits_fp32ToFp16_of_finite policy hf, encodedMagnitude_eq_infinity_iff]

/-- R70: the operand comes back exactly where its value was kept, since DECODE keeps that of the result. -/
theorem fp16ToFp32_fp32ToFp16_eq_iff (hn : isNaN32 f = false) :
    fp16ToFp32 policy (fp32ToFp16 policy f) = f ↔ value16 (fp32ToFp16 policy f) = value32 f := by
  rw [← value32_fp16ToFp32 policy (isNaN16_fp32ToFp16 policy hn)]
  exact ⟨congrArg value32, fun hv => (value32_inj hn hv.symm).symm⟩

/-- R55: an infinity keeps its value. -/
theorem value16_fp32ToFp16_of_infinity (hE : exp32 f = 255#8) (hM : frac32 f = 0#23) :
    value16 (fp32ToFp16 policy f) = value32 f := by
  rw [(value32_eq_infinity_iff f _).2 ⟨hE, hM, rfl⟩, fp32ToFp16_of_infinity policy hE hM, value16_eq_infinity_iff]
  exact ⟨exp16_pack16 .., frac16_pack16 .., by rw [sign16_pack16]⟩

/-- A finite single of the greater magnitude has at least the encoded bits of the lesser. -/
theorem encodedMagnitude_mono (h : magnitude32 f ≤ magnitude32 g) : encodedMagnitude f ≤ encodedMagnitude g := by
  by_contra! hlt
  have hg := hlt.trans_le (encodedMagnitude_le f)
  refine lt_irrefl (encodedMagnitude g) ((lt_encodedMagnitude_iff g hg).2 ?_)
  rcases (lt_encodedMagnitude_iff f hg).1 hlt with habove | ⟨heq, hodd⟩
  · exact .inl (habove.trans_le h)
  · exact (heq.trans_le h).lt_or_eq.imp_right fun heq' => ⟨heq', hodd⟩

/-- R67: encoding keeps the order of magnitude bits, infinities included. -/
theorem magnitudeBits_fp32ToFp16_mono (hf : isNaN32 f = false) (hg : isNaN32 g = false)
    (h : (f.extractLsb' 0 31).toNat ≤ (g.extractLsb' 0 31).toNat) :
    ((fp32ToFp16 policy f).extractLsb' 0 15).toNat ≤ ((fp32ToFp16 policy g).extractLsb' 0 15).toNat := by
  obtain hgfin | ⟨hE, hM⟩ := (isNaN32_eq_false_iff g).1 hg
  · have hffin : isFinite32 f = true := ((isNaN32_eq_false_iff f).1 hf).resolve_right fun ⟨hE, hM⟩ => by
      have := magnitudeBits32_lt hgfin
      have := magnitudeBits32_of_infinity hE hM
      omega
    rw [magnitudeBits_fp32ToFp16_of_finite policy hffin, magnitudeBits_fp32ToFp16_of_finite policy hgfin]
    exact encodedMagnitude_mono ((magnitude32_le_iff f g).2 h)
  · rw [magnitudeBits_fp32ToFp16_of_infinity policy hE hM]
    exact magnitudeBits_fp32ToFp16_le policy hf

/-- R57: a zero has the encoded bits of zero. -/
theorem magnitudeBits_fp32ToFp16_of_zero (hn : isNaN32 f = false) (h0 : (f.extractLsb' 0 31).toNat = 0) :
    ((fp32ToFp16 policy f).extractLsb' 0 15).toNat = 0 := by
  have hfin : isFinite32 f = true := ((isNaN32_eq_false_iff f).1 hn).resolve_right fun ⟨hE, hM⟩ => by
    have := magnitudeBits32_of_infinity hE hM
    omega
  rw [magnitudeBits_fp32ToFp16_of_finite policy hfin]
  refine encodedMagnitude_of_magnitude (by omega) ?_
  rw [magnitude32_eq_unitsOfBits, h0, magnitudeOfBits_zero, unitsOfBits, Nat.zero_div, Nat.zero_mod,
    subnormalUnits_zero, Nat.cast_zero, zero_mul]

end encode

/-! ### The order of values -/

/-- The value of a pattern that is no NaN from its sign and magnitude bits k: the infinity stands at `top`, and a
number's magnitude is `size k`. -/
def valueOfBits (size : Nat → ℚ) (top : Nat) (negative : Bool) (k : Nat) : FpValue :=
  if k = top then .infinity negative else .number negative (size k)

/-- The magnitude of the finite single with magnitude bits k. -/
def magnitudeOfBits32 (k : Nat) : ℚ := (unitsOfBits 23 k : ℚ) * 2 ^ (-149 : ℤ)

theorem magnitudeOfBits32_zero : magnitudeOfBits32 0 = 0 := by
  rw [magnitudeOfBits32, unitsOfBits, Nat.zero_div, Nat.zero_mod, subnormalUnits_zero, Nat.cast_zero, zero_mul]

theorem magnitudeOfBits32_strictMono : StrictMono magnitudeOfBits32 := fun _ _ h =>
  mul_lt_mul_of_pos_right (Nat.cast_lt.mpr (unitsOfBits_strictMono 23 h)) (by positivity)

theorem value16_eq_valueOfBits {h : Half} (hn : isNaN16 h = false) :
    value16 h = valueOfBits magnitudeOfBits 0x7C00 (sign16 h == 1#1) (h.extractLsb' 0 15).toNat := by
  by_cases he : exp16 h = 31#5
  · have hm := (isNaN16_eq_false_iff h).1 hn he
    rw [valueOfBits, if_pos (magnitudeBits16_of_infinity he hm), value16_eq_infinity_iff]
    exact ⟨he, hm, rfl⟩
  · rw [valueOfBits, if_neg (magnitudeBits16_lt he).ne, value16_eq_number_iff]
    exact ⟨he, rfl, magnitude16_eq_magnitudeOfBits h⟩

theorem value32_eq_valueOfBits {f : Single} (hn : isNaN32 f = false) :
    value32 f = valueOfBits magnitudeOfBits32 0x7F800000 (sign32 f == 1#1) (f.extractLsb' 0 31).toNat := by
  obtain hf | ⟨hE, hM⟩ := (isNaN32_eq_false_iff f).1 hn
  · rw [valueOfBits, if_neg (magnitudeBits32_lt hf).ne, value32_eq_number_iff]
    exact ⟨(isFinite32_iff f).1 hf, rfl, magnitude32_eq_unitsOfBits f⟩
  · rw [valueOfBits, if_pos (magnitudeBits32_of_infinity hE hM), value32_eq_infinity_iff]
    exact ⟨hE, hM, rfl⟩

theorem magnitudeBits32_le {f : Single} (hn : isNaN32 f = false) : (f.extractLsb' 0 31).toNat ≤ 0x7F800000 := by
  obtain hf | ⟨hE, hM⟩ := (isNaN32_eq_false_iff f).1 hn
  · exact (magnitudeBits32_lt hf).le
  · exact (magnitudeBits32_of_infinity hE hM).le

/-- Magnitude bits with the sign as one integer, in which -0 and +0 are one. -/
def signedBits (negative : Bool) (k : Nat) : ℤ := if negative then -k else k

@[simp] theorem signedBits_true (k : Nat) : signedBits true k = -k := rfl

@[simp] theorem signedBits_false (k : Nat) : signedBits false k = k := rfl

/-- Numbers are in the order of their signed bits. -/
theorem number_le_iff {size : Nat → ℚ} (hzero : size 0 = 0) (hmono : StrictMono size) (a b : Bool) (j k : Nat) :
    (FpValue.number a (size j)).le (.number b (size k)) ↔ signedBits a j ≤ signedBits b k := by
  have hpos : ∀ i, 0 ≤ size i := fun i => hzero ▸ hmono.monotone (Nat.zero_le i)
  have heq : ∀ i, size i = 0 ↔ i = 0 := fun i => by rw [← hzero, hmono.injective.eq_iff]
  have hj := hpos j
  have hk := hpos k
  cases a <;> cases b <;> simp only [FpValue.le, signedBits_true, signedBits_false, reduceIte, Bool.false_eq_true]
  case false.false => rw [hmono.le_iff_le, Nat.cast_le]
  case false.true =>
    calc size j ≤ -size k ↔ size j = 0 ∧ size k = 0 :=
          ⟨fun h => ⟨by linarith, by linarith⟩, fun ⟨h, h'⟩ => by rw [h, h', neg_zero]⟩
      _ ↔ (j : ℤ) ≤ -k := by rw [heq, heq]; omega
  case true.false => exact iff_of_true (by linarith) (by omega)
  case true.true => rw [neg_le_neg_iff, hmono.le_iff_le, neg_le_neg_iff, Nat.cast_le]

/-- R67: the order of values is that of the signed bits, the infinities at the ends. -/
theorem valueOfBits_le_iff {size : Nat → ℚ} (hzero : size 0 = 0) (hmono : StrictMono size) {top j k : Nat}
    (htop : 0 < top) (hj : j ≤ top) (hk : k ≤ top) (a b : Bool) :
    (valueOfBits size top a j).le (valueOfBits size top b k) ↔ signedBits a j ≤ signedBits b k := by
  unfold valueOfBits
  split_ifs with hjtop hktop hktop
  on_goal 4 => exact number_le_iff hzero hmono a b j k
  -- An infinity, whose bits are `top`, stands at the same end of both orders.
  all_goals cases a <;> cases b <;> simp [FpValue.le] <;> omega

/-- A map of magnitudes that keeps their order and 0 keeps the order of signed bits. -/
theorem signedBits_le_of_mono {a b : Bool} {j k j' k' : Nat} (h : signedBits a j ≤ signedBits b k)
    (hle : j ≤ k → j' ≤ k') (hge : k ≤ j → k' ≤ j') (hj : j = 0 → j' = 0) (hk : k = 0 → k' = 0) :
    signedBits a j' ≤ signedBits b k' := by
  cases a <;> cases b <;> simp only [signedBits_true, signedBits_false] at * <;> omega

/-! ### The rounding rule -/

/-- R58 step 2 as a property of magnitude bits: nearest to x among the finite halves, and even where another is as
near. -/
def IsNearestEven (x : ℚ) (r : Nat) : Prop :=
  r < 0x7C00 ∧ ∀ k < 0x7C00, k ≠ r → |x - magnitudeOfBits r| < |x - magnitudeOfBits k| ∨
    (|x - magnitudeOfBits r| = |x - magnitudeOfBits k| ∧ r % 2 = 0)

theorem isNearestEven_of_isRne16 {negative : Bool} {x : ℚ} {r : Half} (hx : ¬65520 ≤ x) (h : IsRne16 negative x r) :
    IsNearestEven x (r.extractLsb' 0 15).toNat := by
  rw [IsRne16, if_neg hx] at h
  obtain ⟨-, hfin, hnear⟩ := h
  refine ⟨hfin, fun k hk hne => ?_⟩
  have hk15 : (BitVec.ofNat 15 k).toNat = k := by rw [BitVec.toNat_ofNat]; omega
  have hcompare := hnear (BitVec.ofNat 15 k) (by rw [BitVec.lt_def, hk15]; exact hk) fun h => hne (by rw [← h, hk15])
  rw [distance16_eq, distance16_eq, hk15] at hcompare
  refine hcompare.imp_right (And.imp_right fun hbit => ?_)
  rw [← BitVec.testBit_toNat, Nat.testBit_zero] at hbit
  simpa using hbit

/-- Between two even patterns that are equally near there is one that is nearer. -/
theorem nearer_between_evens {j k : Nat} (hlt : j < k) (hj : j % 2 = 0) (hk : k % 2 = 0) {x : ℚ}
    (heq : |x - magnitudeOfBits j| = |x - magnitudeOfBits k|) :
    |x - magnitudeOfBits (j + 1)| < |x - magnitudeOfBits j| := by
  have hfirst := magnitudeOfBits_strictMono (Nat.lt_add_one j)
  have hsecond := magnitudeOfBits_strictMono (show j + 1 < k by omega)
  have hmid : 2 * x = magnitudeOfBits j + magnitudeOfBits k := by
    rcases abs_eq_abs.1 heq with h | h <;> linarith
  rw [abs_sub_lt_abs_sub_iff]
  exact mul_pos (by linarith) (by linarith)

/-- Two different patterns would be equally near and both even, so that the one after the lesser is nearer. -/
theorem IsNearestEven.le {x : ℚ} {j k : Nat} (hj : IsNearestEven x j) (hk : IsNearestEven x k) : k ≤ j := by
  by_contra! hlt
  obtain ⟨hjfin, hjnear⟩ := hj
  obtain ⟨hkfin, hknear⟩ := hk
  have hjk := hjnear k hkfin hlt.ne'
  have hkj := hknear j hjfin hlt.ne
  obtain ⟨heq, hjeven⟩ := hjk.resolve_left fun h => hkj.elim h.not_gt fun h' => h.ne h'.1.symm
  obtain ⟨-, hkeven⟩ := hkj.resolve_left heq.not_gt
  have hnearer := nearer_between_evens hlt hjeven hkeven heq
  exact (hjnear (j + 1) (by omega) (by omega)).elim hnearer.not_gt fun h => hnearer.ne' h.1

theorem IsNearestEven.unique {x : ℚ} {j k : Nat} (hj : IsNearestEven x j) (hk : IsNearestEven x k) : j = k :=
  le_antisymm (hk.le hj) (hj.le hk)

/-! ### Distances of signed numbers -/

/-- Numbers of one sign are as far apart as their magnitudes. -/
theorem abs_signed_sub_signed (s : BitVec 1) (a b : ℚ) :
    |(if s = 1#1 then -a else a) - (if s = 1#1 then -b else b)| = |a - b| := by
  split_ifs
  · rw [neg_sub_neg, abs_sub_comm]
  · rfl

/-- Numbers of any signs are at least as far apart as their magnitudes. -/
theorem abs_sub_le_abs_signed_sub (s t : BitVec 1) {a b : ℚ} (ha : 0 ≤ a) (hb : 0 ≤ b) :
    |a - b| ≤ |(if s = 1#1 then -a else a) - (if t = 1#1 then -b else b)| := by
  have hsum : |a - b| ≤ |a + b| := by
    rw [abs_of_nonneg (add_nonneg ha hb), abs_le]
    constructor <;> linarith
  split_ifs
  · rw [neg_sub_neg, abs_sub_comm]
  · rwa [← neg_add', abs_neg]
  · rwa [sub_neg_eq_add]
  · exact le_rfl

/-- R67: no finite half's magnitude is nearer than that of the encoding. -/
theorem abs_sub_fp32ToFp16_le (policy : NanPolicy) {f : Single} (hf : isFinite32 f = true)
    (hfin : encodedMagnitude f < 0x7C00) (h : Half) :
    |magnitude32 f - magnitude16 (fp32ToFp16 policy f)| ≤ |magnitude32 f - magnitude16 h| := by
  rw [magnitude16_eq_magnitudeOfBits, magnitude16_eq_magnitudeOfBits, magnitudeBits_fp32ToFp16_of_finite policy hf]
  by_cases heq : (h.extractLsb' 0 15).toNat = encodedMagnitude f
  · rw [heq]
  · exact (encodedMagnitude_nearest f hfin heq).elim le_of_lt fun h => h.1.le

/-! ### The two branches for finite singles -/

section bounds
variable {f : Single}

/-- R61: the shift of the subnormal branch. -/
theorem subnormal_shift_eq (hux : unbiasedExponent f < -14) : (-unbiasedExponent f - 1).toNat = droppedBits f := by
  have := unbiasedExponent_eq f
  unfold droppedBits
  omega

/-- R68: in the normal branch the quotient has the hidden bit at its top, and the sum before the clamp fits 18 bits. -/
theorem normal_branch_bounds (hf : isFinite32 f = true) (hux : -14 ≤ unbiasedExponent f) :
    1024 ≤ significand f >>> 13 ∧ significand f >>> 13 ≤ 2047 ∧
      (unbiasedExponent f + 15).toNat * 2 ^ 10 + (roundHalfEven (significand f) 13 - 2 ^ 10) < 2 ^ 18 ∧
      normalMagnitude (significand f) (unbiasedExponent f) ≤ 0x7C00 := by
  have huxE := unbiasedExponent_eq f
  have hE : 113 ≤ (exp32 f).toNat := by omega
  have hE254 : (exp32 f).toNat < 255 :=
    (Nat.lt_succ_iff.1 (exp32 f).isLt).lt_of_ne fun h => (isFinite32_iff f).1 hf (BitVec.eq_of_toNat_eq h)
  have hlow : 2 ^ 23 ≤ significand f := by rw [significand_of_normal (by omega)]; omega
  have hhigh := significand_lt f
  have hround : roundHalfEven (significand f) 13 ≤ 2 ^ 11 := roundHalfEven_le (by omega) (by omega)
  have hclamped := encodedMagnitude_le f
  rw [encodedMagnitude, if_pos hux] at hclamped
  rw [Nat.shiftRight_eq_div_pow]
  exact ⟨by omega, by omega, by omega, hclamped⟩

/-- R68: in the subnormal branch at least 14 bits are dropped, so that 10 remain before the increment. -/
theorem subnormal_branch_bounds (hux : unbiasedExponent f < -14) :
    significand f >>> (-unbiasedExponent f - 1).toNat ≤ 2 ^ 10 - 1 ∧
      subnormalMagnitude (significand f) (unbiasedExponent f) ≤ 2 ^ 10 := by
  have huxE := unbiasedExponent_eq f
  have hE : (exp32 f).toNat ≤ 112 := by omega
  rw [subnormalMagnitude, subnormal_shift_eq hux, Nat.shiftRight_eq_div_pow]
  have hquot : significand f / 2 ^ droppedBits f < 2 ^ 10 := by
    rw [Nat.div_lt_iff_lt_mul (Nat.two_pow_pos _)]
    calc significand f < 2 ^ 10 * 2 ^ 14 := significand_lt f
      _ ≤ 2 ^ 10 * 2 ^ droppedBits f := by gcongr; exacts [by norm_num, by unfold droppedBits; omega]
  exact ⟨by omega, roundHalfEven_significand_le hE⟩

end bounds

/-! ## The statements about ENCODE -/

/-- Settles O35: from 65520 on the bits are the infinity's, below it they are nearest and even. -/
theorem theRoundingRuleGivesOnePattern : Obligations.TheRoundingRuleGivesOnePattern := by
  intro negative x r₁ r₂ _ h₁ h₂
  have hsign : sign16 r₁ = sign16 r₂ := sign_eq_of_beq_one_eq (h₁.1.trans h₂.1.symm)
  have hbits : r₁.extractLsb' 0 15 = r₂.extractLsb' 0 15 := by
    by_cases hx : 65520 ≤ x
    · rw [IsRne16, if_pos hx] at h₁ h₂
      exact h₁.2.trans h₂.2.symm
    · exact BitVec.eq_of_toNat_eq ((isNearestEven_of_isRne16 hx h₁).unique (isNearestEven_of_isRne16 hx h₂))
  rw [← sign16_append_magnitudeBits r₁, ← sign16_append_magnitudeBits r₂, hsign, hbits]

/-- Settles O42: the encoding has the operand's sign, and a half of the other sign is no nearer than its magnitude
is. -/
theorem noFiniteHalfIsNearer : Obligations.NoFiniteHalfIsNearer := by
  intro policy f hf hover
  have hfin : encodedMagnitude f < 0x7C00 :=
    (encodedMagnitude_le f).lt_of_ne ((encodedMagnitude_eq_infinity_iff f).not.mpr hover.not_ge)
  have hsign := sign16_fp32ToFp16 policy ((isNaN32_eq_false_iff f).2 (.inl hf))
  refine ⟨(isFinite16_iff_bits _).2 ((magnitudeBits_fp32ToFp16_of_finite policy hf).trans_lt hfin), fun h _ => ?_⟩
  rw [hsign, abs_signed_sub_signed]
  exact (abs_sub_fp32ToFp16_le policy hf hfin h).trans
    (abs_sub_le_abs_signed_sub _ _ (magnitude32_nonneg f) (magnitude16_nonneg h))

/-- Settles O43: ENCODE keeps the sign and the order of magnitude bits, and so that of signed bits. -/
theorem encodeIsMonotone : Obligations.EncodeIsMonotone := by
  intro policy f₁ f₂ hn₁ hn₂ hle
  rw [value32_eq_valueOfBits hn₁, value32_eq_valueOfBits hn₂,
    valueOfBits_le_iff magnitudeOfBits32_zero magnitudeOfBits32_strictMono (by omega) (magnitudeBits32_le hn₁)
      (magnitudeBits32_le hn₂)] at hle
  rw [value16_eq_valueOfBits (isNaN16_fp32ToFp16 policy hn₁), value16_eq_valueOfBits (isNaN16_fp32ToFp16 policy hn₂),
    valueOfBits_le_iff magnitudeOfBits_zero magnitudeOfBits_strictMono (by omega)
      (magnitudeBits_fp32ToFp16_le policy hn₁) (magnitudeBits_fp32ToFp16_le policy hn₂),
    sign16_fp32ToFp16 policy hn₁, sign16_fp32ToFp16 policy hn₂]
  exact signedBits_le_of_mono hle (magnitudeBits_fp32ToFp16_mono policy hn₁ hn₂)
    (magnitudeBits_fp32ToFp16_mono policy hn₂ hn₁) (magnitudeBits_fp32ToFp16_of_zero policy hn₁)
    (magnitudeBits_fp32ToFp16_of_zero policy hn₂)

/-- Settles O44: an encoding is no NaN and so survives the round trip; the smallest binary32 subnormal does not. -/
theorem encodeIsAProjectionAndNoLeftInverse : Obligations.EncodeIsAProjectionAndNoLeftInverse := by
  refine fun policy => ⟨fun f hn => (encodeUndoesDecode _).1 (isNaN16_fp32ToFp16 policy hn) policy, 0x00000001#32, ?_⟩
  cases policy <;> decide

/-- Settles O45: the bounds of each branch. -/
theorem encodeArithmeticStaysInBounds : Obligations.EncodeArithmeticStaysInBounds := fun policy f hn =>
  ⟨significand_lt f, isNaN16_fp32ToFp16 policy hn, normal_branch_bounds, fun _ => subnormal_branch_bounds⟩

/-- Settles O46: DECODE gives f back exactly where ENCODE kept its value, and an infinity keeps it. -/
theorem inexactAndOverflowAreReadOffTheResult : Obligations.InexactAndOverflowAreReadOffTheResult := by
  intro policy f hn
  rw [ne_eq, fp16ToFp32_fp32ToFp16_eq_iff policy hn]
  obtain hf | ⟨hE, hM⟩ := (isNaN32_eq_false_iff f).1 hn
  · simp [conditionsOfEncode, hf, class16_fp32ToFp16_eq_infinity_iff policy hf]
  · have hnot : isFinite32 f = false := by simp [isFinite32, hE]
    simp [conditionsOfEncode, hnot, value16_fp32ToFp16_of_infinity policy hE hM]

end Sys2Proof.Machine
end

section
/-! SUPPORT. Systems of instances: what a step and a transaction do to each of them (spec/20_memory.md R27;
spec/60_exceptions.md R78). -/

namespace Sys2Proof.Machine

/-! ### Steps of instances -/

/-- R78: a step of the k-th of several instances, seen at each of them. -/
theorem stepInstance_getElem? (k j : Nat) (system : List Instance) :
    (stepInstance k system)[j]? = if k = j then system[j]?.map Instance.step else system[j]? := by
  unfold stepInstance
  cases hk : system[k]? with
  | none =>
    split_ifs with h
    · subst h; simp [hk]
    · rfl
  | some x =>
    split_ifs with h
    · obtain ⟨hlt, rfl⟩ := List.getElem?_eq_some_iff.1 hk
      subst h; simp [hlt]
    · simp [h]

theorem stepInstance_comm {i j : Nat} (hij : i ≠ j) (system : List Instance) :
    stepInstance j (stepInstance i system) = stepInstance i (stepInstance j system) := by
  refine List.ext_getElem? fun k => ?_
  simp only [stepInstance_getElem?]
  split_ifs with hj hi
  · exact absurd (hi.trans hj.symm) hij
  · rfl
  · rfl
  · rfl

theorem runSchedule_append (before later : List Nat) (system : List Instance) :
    runSchedule (before ++ later) system = runSchedule later (runSchedule before system) := List.foldl_append

theorem runSchedule_cons (k : Nat) (ks : List Nat) (system : List Instance) :
    runSchedule (k :: ks) system = runSchedule ks (stepInstance k system) := rfl

/-! ### Transactions -/

section transactions
variable {b : Build}

/-- What the host samples at a LATENCY = 0 unit is the transaction's result. -/
@[simp] theorem CodecUnit.sampled_zero {ι : Type} {w : Nat} (u : CodecUnit ι w) : u.sampled 0 = u.result := if_pos rfl

section presentTo
variable (s : State) {T : Transaction}

theorem State.presentTo_joint (hf : b.form = .joint) : s.presentTo b T = s.present T := by
  simp [State.presentTo, hf]

theorem State.presentTo_decodeUnit (hf : b.form = .split) (hop : opOf T = 0#1) : s.presentTo b T =
    { s with
      decodeUnit := { s.decodeUnit with operand := Port.drive ((operandOf T).extractLsb' 0 16), held := true }
      turn := .decodeUnit } := by
  simp [State.presentTo, hf, hop]

theorem State.presentTo_encodeUnit (hf : b.form = .split) (hop : opOf T = 1#1) : s.presentTo b T =
    { s with
      encodeUnit := { s.encodeUnit with operand := Port.drive (operandOf T), held := true }
      turn := .encodeUnit } := by
  simp [State.presentTo, hf, hop]

end presentTo

/-- R20, R36: in either form the step on a presented transaction gives `CODEC` of its word, placed as on `y`. -/
theorem stepOf_presentTo (hL : b.latency = 0) (s : State) (T : Transaction) :
    ∃ t, stepOf b (s.presentTo b T) = .next t ∧ t.resultAt b = some (codec b.nanPolicy (opOf T) (operandOf T)) := by
  cases hf : b.form with
  | joint =>
    rw [State.presentTo_joint s hf, stepOf_present hL hf]
    exact ⟨_, rfl, by simp [State.resultAt, hf, hL]⟩
  | split =>
    obtain hop | hop := BitVec.eq_zero_or_eq_one (opOf T)
    · have heval := decodeUnitEval_drive b.nanPolicy ((operandOf T).extractLsb' 0 16)
      rw [State.presentTo_decodeUnit s hf hop, stepOf_decodeUnit hL hf rfl, CodecUnit.evaluate_of_held rfl heval]
      exact ⟨_, rfl, by simp [State.resultAt, hf, hL, hop, codec]⟩
    · have heval := encodeUnitEval_drive b.nanPolicy (operandOf T)
      rw [State.presentTo_encodeUnit s hf hop, stepOf_encodeUnit hL hf rfl, CodecUnit.evaluate_of_held rfl heval]
      exact ⟨_, rfl, by simp [State.resultAt, hf, hL, hop, codec]⟩

/-- R27: what the host samples where it presented a transaction. -/
theorem sampled_step_presentTo {x : Instance} (hL : x.build.latency = 0) (T : Transaction) :
    (Instance.step { x with state := x.state.presentTo x.build T }).sampled =
      some (codec x.build.nanPolicy (opOf T) (operandOf T)) := by
  obtain ⟨t, ht, hresult⟩ := stepOf_presentTo hL x.state T
  obtain ⟨hfault, hafter⟩ := stepOf_eq_next_iff.1 ht
  simp [Instance.sampled, hfault, hafter, hresult]

/-- R27: a transaction's result, sampled where the schedule has it. -/
theorem sampled_transact {e : ScheduledTransaction} {system : List Instance}
    (hL : ∀ x ∈ system, x.build.latency = 0) :
    (transact e system)[e.index]?.bind Instance.sampled =
      system[e.index]?.map fun x => codec x.build.nanPolicy (opOf e.word) (operandOf e.word) := by
  unfold transact
  cases hx : system[e.index]? with
  | none => simp [hx]
  | some x =>
    obtain ⟨hlt, -⟩ := List.getElem?_eq_some_iff.1 hx
    simp [hlt, sampled_step_presentTo (hL x (List.mem_of_getElem? hx))]

/-- What holds of the builds of all instances holds of them after a transaction. -/
theorem transact_forall_build {P : Build → Prop} (e : ScheduledTransaction) {system : List Instance}
    (h : ∀ x ∈ system, P x.build) : ∀ x ∈ transact e system, P x.build := by
  intro x hx
  obtain ⟨k, hk⟩ := List.mem_iff_getElem?.1 hx
  have hbuild := transact_build e system k
  rw [hk, Option.map_some, eq_comm, Option.map_eq_some_iff] at hbuild
  obtain ⟨x₀, hx₀, heq⟩ := hbuild
  exact heq ▸ h x₀ (List.mem_of_getElem? hx₀)

/-- `CODEC` depends on the build alone, which no transaction changes. -/
theorem codec_transact (e d : ScheduledTransaction) (system : List Instance) :
    ((transact e system)[d.index]?.map fun x => codec x.build.nanPolicy (opOf d.word) (operandOf d.word)) =
      system[d.index]?.map fun x => codec x.build.nanPolicy (opOf d.word) (operandOf d.word) := by
  simpa only [Option.map_map, Function.comp_def] using
    congrArg (Option.map fun b : Build => codec b.nanPolicy (opOf d.word) (operandOf d.word))
      (transact_build e system d.index)

end transactions

/-! ## The statements about instances -/

/-- Settles O57: instances do not see each other's steps. -/
theorem instancesNeedNoSynchronisation : Obligations.InstancesNeedNoSynchronisation := by
  refine fun i j system hij => ⟨stepInstance_comm hij system, fun before later => ?_, ?_, ?_⟩
  · simp only [runSchedule_append, runSchedule_cons, stepInstance_comm hij]
  · rw [stepInstance_getElem?, if_neg hij]
  · rw [stepInstance_getElem?, if_pos rfl]
    rfl

/-- Settles O59: each transaction gives `CODEC` where it is presented, and leaves all instances their builds. -/
theorem anyInterleavingGivesEachItsCodec : Obligations.AnyInterleavingGivesEachItsCodec := by
  intro transactions
  induction transactions with
  | nil => exact fun _ _ _ => rfl
  | cons e es ih =>
    intro system hL hindex
    rw [runTransactions, List.map_cons, sampled_transact hL,
      ih (transact e system) (transact_forall_build (P := (·.latency = 0)) e hL) fun d hd => by
        rw [transact_length]; exact hindex d (List.mem_cons_of_mem e hd)]
    simp only [codec_transact]

end Sys2Proof.Machine
end

section
/-! SUPPORT. Programs that the host drives at a LATENCY = 0 JOINT build (spec/30_encoding.md R40). -/

namespace Sys2Proof.Machine

/-- The width of a line's result: true where it is 32 bits. -/
def LineResult.isSingle : LineResult → Bool
  | .single _ => true
  | .half _ => false

/-- The results so far have the widths of the lines that gave them. -/
def ResultsFit (lines : List ProgramLine) (results : List LineResult) : Prop :=
  results.map LineResult.isSingle = lines.map ProgramLine.resultIsSingle

section fit
variable {lines : List ProgramLine} {results : List LineResult}

theorem LineResult.isSingle_eq_true {r : LineResult} (h : r.isSingle = true) : ∃ f, r = .single f := by
  cases r with
  | single f => exact ⟨f, rfl⟩
  | half _ => cases h

theorem LineResult.isSingle_eq_false {r : LineResult} (h : r.isSingle = false) : ∃ x, r = .half x := by
  cases r with
  | single _ => cases h
  | half x => exact ⟨x, rfl⟩

theorem ResultsFit.append {l : ProgramLine} {r : LineResult} (h : ResultsFit lines results)
    (hr : r.isSingle = l.resultIsSingle) : ResultsFit (lines ++ [l]) (results ++ [r]) := by
  rw [ResultsFit, List.map_append, List.map_append, h, List.map_singleton, List.map_singleton, hr]

/-- Where a line with a result of the wanted width has been, its result is there with that width. -/
theorem ResultsFit.exists_result (hfit : ResultsFit lines results) {k : Nat} {p : ProgramLine → Bool} {want : Bool}
    (hp : ∀ l, p l = true → l.resultIsSingle = want) (hk : (lines[k]?.map p).getD false = true) :
    ∃ r, results[k]? = some r ∧ r.isSingle = want := by
  obtain ⟨l, hl, hpl⟩ : ∃ l, lines[k]? = some l ∧ p l = true := by
    cases hl : lines[k]? with
    | none => simp [hl] at hk
    | some l => exact ⟨l, rfl, by simpa [hl] using hk⟩
  have hwidth : results[k]?.map LineResult.isSingle = lines[k]?.map ProgramLine.resultIsSingle := by
    rw [← List.getElem?_map, hfit, List.getElem?_map]
  rw [hl, Option.map_some, hp l hpl] at hwidth
  exact Option.map_eq_some_iff.1 hwidth

/-- A source that is well formed after lines gives a half after their results. -/
theorem halfOperand_of_ok (hfit : ResultsFit lines results) {source : OperandSource}
    (h : source.ok lines false = true) : ∃ x, halfOperand results source = some x := by
  cases source with
  | half x => exact ⟨x, rfl⟩
  | single f => cases h
  | result k =>
    obtain ⟨r, hr, hhalf⟩ := hfit.exists_result (want := false) (by simp) h
    obtain ⟨x, rfl⟩ := LineResult.isSingle_eq_false hhalf
    exact ⟨x, by simp [halfOperand, hr]⟩
  | lo16 k =>
    obtain ⟨r, hr, hsingle⟩ := hfit.exists_result (want := true) (fun _ => id) h
    obtain ⟨f, rfl⟩ := LineResult.isSingle_eq_true hsingle
    exact ⟨f.extractLsb' 0 16, by simp [halfOperand, hr]⟩
  | zext32 k => cases h

/-- A source that is well formed after lines gives a single after their results. -/
theorem singleOperand_of_ok (hfit : ResultsFit lines results) {source : OperandSource}
    (h : source.ok lines true = true) : ∃ f, singleOperand results source = some f := by
  cases source with
  | half x => cases h
  | single f => exact ⟨f, rfl⟩
  | result k =>
    obtain ⟨r, hr, hsingle⟩ := hfit.exists_result (want := true) (by simp) h
    obtain ⟨f, rfl⟩ := LineResult.isSingle_eq_true hsingle
    exact ⟨f, by simp [singleOperand, hr]⟩
  | lo16 k => cases h
  | zext32 k =>
    obtain ⟨r, hr, hhalf⟩ := hfit.exists_result (want := false) (by simp) h
    obtain ⟨x, rfl⟩ := LineResult.isSingle_eq_false hhalf
    exact ⟨0#16 ++ x, by simp [singleOperand, hr]⟩

/-- A well-formed line stands for an instruction, whose result has the line's width. -/
theorem ProgramLine.exists_instr (hfit : ResultsFit lines results) {l : ProgramLine} (h : l.ok lines = true) :
    ∃ i, l.instr results = some i ∧ ∀ y, (resultOf i y).isSingle = l.resultIsSingle := by
  cases l with
  | decodeOf source =>
    obtain ⟨x, hx⟩ := halfOperand_of_ok hfit h
    exact ⟨.decode x, by rw [ProgramLine.instr, hx, Option.map_some], fun _ => rfl⟩
  | encodeOf source =>
    obtain ⟨f, hf⟩ := singleOperand_of_ok hfit h
    exact ⟨.encode f, by rw [ProgramLine.instr, hf, Option.map_some], fun _ => rfl⟩

end fit

/-! ### Runs -/

section runs
variable {b : Build} (hf : b.form = .joint) (hL : b.latency = 0)
include hf hL

/-- R40: driving a line that has an operand appends its instruction's result. -/
theorem runLine_of_instr {l : ProgramLine} {r : ProgramRun} {i : Instr} (hi : l.instr r.results = some i) :
    ∃ y t, runLine b l r = some (.next { results := r.results ++ [resultOf i y], state := t }) := by
  have hstep := stepOf_present hL hf r.state (encode i)
  generalize codec b.nanPolicy (opOf (encode i)) (operandOf (encode i)) = y at hstep
  exact ⟨y, (r.state.present (encode i)).withResult y, by simp [runLine, hi, hstep, andThen]⟩

/-- R40: the lines of a program that is well formed after earlier lines, whose results are there, append one result
each. -/
theorem runProgram_of_ok (program earlier : List ProgramLine) (r : ProgramRun) (hok : programOk earlier program = true)
    (hfit : ResultsFit earlier r.results) : ∃ r', runProgram b program r = some (.next r') ∧
      r'.results.length = r.results.length + program.length := by
  induction program generalizing earlier r with
  | nil => exact ⟨r, rfl, rfl⟩
  | cons l ls ih =>
    rw [programOk, Bool.and_eq_true] at hok
    obtain ⟨hl, hls⟩ := hok
    obtain ⟨i, hi, hwidth⟩ := ProgramLine.exists_instr hfit hl
    obtain ⟨y, t, hrun⟩ := runLine_of_instr hf hL hi
    obtain ⟨r', hr', hlength⟩ := ih _ { results := r.results ++ [resultOf i y], state := t } hls
      (hfit.append (hwidth y))
    refine ⟨r', ?_, ?_⟩
    · rw [runProgram, hrun]
      exact hr'
    · rw [hlength, List.length_append, List.length_singleton, List.length_cons]
      omega

end runs

/-- Settles O58: before the first line no result is needed. -/
theorem aWellFormedProgramRunsToItsEnd : Obligations.AWellFormedProgramRunsToItsEnd := by
  intro b program s hf hL hok
  obtain ⟨r, hr, hlength⟩ := runProgram_of_ok hf hL program [] { results := [], state := s } hok rfl
  exact ⟨r, hr, hlength.trans (Nat.zero_add _)⟩

end Sys2Proof.Machine
end
